-- ==== Sys2Proof/Word.lean ====
section
/-!
DEFINITION. The words of the parser (spec/00_scope.md section 6): a byte, a command word, a frame
written as one word, a concentration; and the two 8-bit wraparound operations.
-/

namespace Sys2Proof

/-- BYTE_W = 8 (R4). -/
abbrev Byte := BitVec 8

/-- CMD_W = 11 (R5, R35). -/
abbrev CmdWord := BitVec 11

/-- A frame written as the 72-bit word `{b0, b1, ..., b8}` (30_encoding.md section 2). -/
abbrev FrameWord := BitVec 72

/-- PPM_W = 16 (R4). -/
abbrev PpmWord := BitVec 16

/-- `add8(a, b) = (a + b) mod 256` (00_scope.md section 6). -/
def add8 (a b : Byte) : Byte := a + b

/-- `sub8(a, b) = (a - b) mod 256` (00_scope.md section 6). -/
def sub8 (a b : Byte) : Byte := a - b

end Sys2Proof
end

