-- ==== Sys2Proof/Config.lean ====
section
/-!
DEFINITION. Config: the parameters whose value the document fixes (R4), and the host's durations,
which it leaves open (R5), as constants without a body.
-/

namespace Sys2Proof.Config

/-- FRAME_LEN: bytes in a Response Frame and in the Command Frame (R4). -/
abbrev frameLen : Nat := 9

/-- MARKER: required value of byte 0 of a Response Frame (R4). -/
abbrev marker : Byte := 0xFF#8

/-- MARKER_POS (R4). -/
abbrev markerPos : Nat := 0

/-- CK_FIRST: first offset summed by the checksum (R4). -/
abbrev ckFirst : Nat := 1

/-- CK_LAST: last offset summed by the checksum, inclusive (R4). -/
abbrev ckLast : Nat := 7

/-- CK_POS: offset of the received checksum (R4). -/
abbrev ckPos : Nat := 8

/-- HI_POS: offset of the high byte of the concentration (R4). -/
abbrev hiPos : Nat := 2

/-- LO_POS: offset of the low byte of the concentration (R4). -/
abbrev loPos : Nat := 3

/-- CMD_FRAME: the Command Frame `FF 01 86 00 00 00 00 00 79` as the word `F` (R4, R32). -/
abbrev cmdFrame : FrameWord := 0xFF0186000000000079

/-- PPM_CEILING: the host's plausibility ceiling, inclusive (R4, R59). -/
abbrev ppmCeiling : Nat := 15000

/-- SENTINEL: the host's "not available" concentration (R4, R60). -/
abbrev sentinel : Int := -1

/-- STRICT where one value must be picked (R5; 92_eei_decisions.md D6). Log entry 1. -/
abbrev strictDefault : Bool := true

/-- WARMUP, OPEN (R5): a duration nothing can be proved about. Log entry 9. -/
opaque warmup : Nat

/-- SETTLE_DELAY, OPEN (R5). Log entry 9. -/
opaque settleDelay : Nat

/-- READ_TIMEOUT, a duration or none, OPEN (R5, R63). Log entry 9. -/
opaque readTimeout : Option Nat

end Sys2Proof.Config
end

