-- ==== Sys2Proof/Syntax.lean ====
section
/-!
DEFINITION. Syntax: one constructor per row of spec/opcode_table.json, the four operations of the
command port and the two frames of the serial link.
-/

namespace Sys2Proof

/-- Nine bytes in the order received or transmitted, `b0` first (00_scope.md section 6). -/
structure Frame where
  b0 : Byte
  b1 : Byte
  b2 : Byte
  b3 : Byte
  b4 : Byte
  b5 : Byte
  b6 : Byte
  b7 : Byte
  b8 : Byte
  deriving DecidableEq, Repr

/-- The rows of the opcode table. -/
inductive Instr where
  /-- CLR: start a fresh frame (R40). -/
  | clr
  /-- PUSH d: store one received byte at the next offset (R41). -/
  | push (d : Byte)
  /-- VAL: check the marker and compute the checksum (R45). -/
  | val
  /-- DEC: decode the concentration (R50). -/
  | dec
  /-- RESPONSE_FRAME: nine bytes from the sensor, consumed through nine PUSH words (R31, R39). -/
  | responseFrame (f : Frame)
  /-- COMMAND_FRAME: the fixed nine bytes the host transmits (R32, R55). -/
  | commandFrame
  deriving DecidableEq, Repr

end Sys2Proof
end

