-- ==== Sys2Proof/WellFormed.lean ====
section
/-!
DEFINITION. WellFormed: which terms of `Instr` are instructions of the table. Every operand is
already of its width; the one check left is the marker of a Response Frame (R31).
-/

namespace Sys2Proof

/-- A Response Frame's byte 0 is the marker 0xFF (R31); the other rows have nothing to check. -/
def Instr.wellFormed : Instr → Bool
  | .clr => true
  | .push _ => true
  | .val => true
  | .dec => true
  | .responseFrame f => f.b0 == Config.marker
  | .commandFrame => true

end Sys2Proof
end

