-- ==== Sys2Proof/Decode.lean ====
section
/-!
DEFINITION. Decode: from the command port's 11 bits, or a frame on the serial link, to an
instruction or a named rejection (R30, R33, R35, R36); then the encoder, from the same tables.
-/

namespace Sys2Proof

/-- Where bits come from: the command port, or one of the two directions of the serial link. The
two frame patterns overlap (the Command Frame has a Response Frame's shape, R32), so the direction
is part of what is decoded. Log entry 6. -/
inductive Wire where
  /-- A word on the command port (R35). -/
  | cmd (w : CmdWord)
  /-- A frame from the sensor (R31). -/
  | rx (F : FrameWord)
  /-- A frame towards the sensor (R32). -/
  | tx (F : FrameWord)
  deriving DecidableEq, Repr

/-- Why bits are no instruction. -/
inductive DecodeError where
  /-- OP is 0, 5, 6 or 7 (R36). -/
  | reservedOp (op : BitVec 3)
  /-- OP is that of CLR, VAL or DEC and DATA is not 0x00 (R36). -/
  | reservedData (w : CmdWord)
  /-- Byte 0 of a received frame is not the marker (R31, R37). -/
  | wrongMarker (b0 : Byte)
  /-- A transmitted frame that is not the Command Frame, which has no mutable fields (R32). -/
  | notCommandFrame (F : FrameWord)
  deriving DecidableEq, Repr

/-- OP = `cmd[10:8]` (R35). -/
def cmdOp (w : CmdWord) : BitVec 3 := w.extractLsb' 8 3

/-- DATA = `cmd[7:0]` (R35), used as is (R34). -/
def cmdData (w : CmdWord) : Byte := w.extractLsb' 0 8

/-- A word selects a row when `(w AND mask) == match` (R35). -/
def selects (mask pat w : CmdWord) : Bool := (w &&& mask) == pat

/-- The command-word decoder, row by row from the table of R35; R36 for what selects no row. -/
def decodeCmd (w : CmdWord) : Except DecodeError Instr :=
  if selects 0x7FF 0x100 w then .ok .clr
  else if selects 0x700 0x200 w then .ok (.push (cmdData w))
  else if selects 0x7FF 0x300 w then .ok .val
  else if selects 0x7FF 0x400 w then .ok .dec
  else if cmdOp w = 1 ∨ cmdOp w = 3 ∨ cmdOp w = 4 then .error (.reservedData w)
  else .error (.reservedOp (cmdOp w))

/-- The frame a 72-bit word writes: b0 is `F[71:64]`, ..., b8 is `F[7:0]` (30_encoding.md section 2). -/
def frameOfWord (F : FrameWord) : Frame where
  b0 := F.extractLsb' 64 8
  b1 := F.extractLsb' 56 8
  b2 := F.extractLsb' 48 8
  b3 := F.extractLsb' 40 8
  b4 := F.extractLsb' 32 8
  b5 := F.extractLsb' 24 8
  b6 := F.extractLsb' 16 8
  b7 := F.extractLsb' 8 8
  b8 := F.extractLsb' 0 8

/-- `F = {b0, b1, b2, b3, b4, b5, b6, b7, b8}` (30_encoding.md section 2). -/
def frameToWord (f : Frame) : FrameWord :=
  f.b0.setWidth 72 <<< 64 ||| f.b1.setWidth 72 <<< 56 ||| f.b2.setWidth 72 <<< 48 |||
    f.b3.setWidth 72 <<< 40 ||| f.b4.setWidth 72 <<< 32 ||| f.b5.setWidth 72 <<< 24 |||
    f.b6.setWidth 72 <<< 16 ||| f.b7.setWidth 72 <<< 8 ||| f.b8.setWidth 72

/-- A frame from the sensor: a RESPONSE_FRAME when byte 0 is the marker (R31). -/
def decodeRx (F : FrameWord) : Except DecodeError Instr :=
  let f := frameOfWord F
  if f.b0 = Config.marker then .ok (.responseFrame f) else .error (.wrongMarker f.b0)

/-- A frame towards the sensor: the COMMAND_FRAME and nothing else (R32). -/
def decodeTx (F : FrameWord) : Except DecodeError Instr :=
  if F = Config.cmdFrame then .ok .commandFrame else .error (.notCommandFrame F)

/-- The decoder, total on every wire. -/
def decode : Wire → Except DecodeError Instr
  | .cmd w => decodeCmd w
  | .rx F => decodeRx F
  | .tx F => decodeTx F

/-- The wire a table row's word comes on: up to 16 bits the command port (its 11 bits fill two
bytes), beyond that the serial link; the word of COMMAND_FRAME, which also fits RESPONSE_FRAME's
pattern, is the host's transmission. A word with bits above its row's width is on no wire.
Log entries 6 and 26. -/
def tableWire (nbits w : Nat) : Option Wire :=
  if nbits ≤ 16 then
    if w < 2 ^ 11 then some (.cmd (BitVec.ofNat 11 w)) else none
  else if w < 2 ^ 72 then
    let F := BitVec.ofNat 72 w
    if F = Config.cmdFrame then some (.tx F) else some (.rx F)
  else none

/-- What the decoder reads from a word numbered as spec/opcode_table.json numbers it. -/
def decodeTableWord (nbits w : Nat) : Option Instr :=
  (tableWire nbits w).bind fun wire => (decode wire).toOption

/-- The word of a command-port operation (R35), `{OP, DATA}`. -/
def cmdWordOf (op : BitVec 3) (data : Byte) : CmdWord :=
  op.setWidth 11 <<< 8 ||| data.setWidth 11

/-- The encoder: the wire and the word of an instruction (R31, R32, R35). -/
def encode : Instr → Wire
  | .clr => .cmd (cmdWordOf 0b001 0x00)
  | .push d => .cmd (cmdWordOf 0b010 d)
  | .val => .cmd (cmdWordOf 0b011 0x00)
  | .dec => .cmd (cmdWordOf 0b100 0x00)
  | .responseFrame f => .rx (frameToWord f)
  | .commandFrame => .tx Config.cmdFrame

end Sys2Proof
end

