-- ==== Sys2Proof/Machine/State.lean ====
section
/-!
DEFINITION. State: the parser's eight registers (R10), its strap STRICT (R14), what waits at its
pins, and the host of 43_host_poll_cycle.md; all plain data. State.reset (R16, R85).
-/

namespace Sys2Proof.Machine

/-- The frame buffer as a list of (offset, byte), offsets rising, no offset listed twice; a byte
not listed holds no value (R15, log entry 2). -/
abbrev Memory := List Host.Cell

/-- ERR (R70). Code 7 is never produced and is left out of the type, as R70 allows (log entry 14). -/
inductive Err where
  /-- 0: no error since the last CLR or reset. -/
  | noError
  /-- 1, raised by VAL: byte 0 is not 0xFF. -/
  | marker
  /-- 2, raised by DEC under STRICT = 1: computed and received checksum differ. -/
  | checksum
  /-- 3, raised by VAL and DEC: fewer than nine bytes. -/
  | short
  /-- 4, raised by PUSH: a tenth byte. -/
  | overrun
  /-- 5, raised by DEC: decode before validate. -/
  | order
  /-- 6, raised by a reserved command word. -/
  | illegal
  deriving DecidableEq, Repr

/-- The host's two states (R56). -/
inductive HostMode where
  | warmingUp
  | ready
  deriving DecidableEq, Repr

/-- Where the host stands in the poll cycle of R58. Times are elapsed times at which a wait began. -/
inductive Phase where
  /-- Step 1: transmit the Command Frame. -/
  | transmit
  /-- Steps 1 and 2: issue the frame's CLR; transmission was at `since` (log entry 11). -/
  | clear (since : Nat)
  /-- Step 2: the settle delay, from the transmission at `since`. -/
  | settle (since : Nat)
  /-- Step 3: `got` bytes read so far; reading began at `since`. -/
  | read (got : Nat) (since : Nat)
  /-- Step 4. -/
  | validate
  /-- Step 5. -/
  | decode
  /-- Step 6. -/
  | check
  deriving DecidableEq, Repr

/-- One move of the outside world, or of the host and the sensor towards the parser (R3, R62).
Log entry 3. -/
inductive Event where
  /-- The parser's input pins at one step (R7). -/
  | pins (rst cmdValid : Bool) (cmd : CmdWord)
  /-- FRAME: nine bytes presented as nine PUSH words (R39; log entry 4). -/
  | frame (F : FrameWord)
  /-- The Command Transmitter is called (R55). -/
  | transmit
  /-- A byte from the sensor reaches the serial channel (R3). -/
  | serial (b : Byte)
  /-- The Poll Cycle gets a turn, `dt` time units after its last one; `valOnTimeout` is its free
  choice between the two ways of giving up a short read (R63; log entries 8 and 12). -/
  | turn (dt : Nat) (valOnTimeout : Bool)
  deriving DecidableEq, Repr

/-- Why a step can stop. Both reasons need a state that breaks an invariant of R17, which no run
from reset reaches (log entry 7). -/
inductive Fault where
  /-- Raised by VAL and DEC: a byte of the frame is read that holds no value, though FILL = 9. R24
  says it never happens. Safe: the model stops where no machine goes on. -/
  | noValue (offset : Nat)
  /-- Raised by PUSH (alone, in a frame, or from the Poll Cycle): FILL is 10 to 15, so the write
  would be at an offset the buffer does not have (R12, R20). Safe. -/
  | noSuchOffset (offset : Nat)
  deriving DecidableEq, Repr

/-- Why an instruction can be refused. Every one of the 2048 command words has an effect in every
state (R82), so no meaning refuses. -/
inductive Refusal where
  /-- Raised by a dispatch arm of an instruction without a meaning; there is none. Safe. -/
  | notModelled (mnemonic : String)
  deriving DecidableEq, Repr

/-- The whole machine. -/
structure State where
  /-- BUF[0] to BUF[8] (R10, R20). -/
  buf : Memory
  /-- FILL, bytes received since the last CLR or reset (R10, R12). -/
  fill : BitVec 4
  /-- VD, this frame's marker was found by VAL (R10, R13). -/
  vd : Bool
  /-- CSUM, the computed checksum; no value while VD = 0 (R10, R15). -/
  csum : Option Byte
  /-- CSOK, CSUM equals BUF[8] (R10, R13). -/
  csok : Bool
  /-- PPM, the decoded concentration; no value while PV = 0 (R10, R15). -/
  ppm : Option PpmWord
  /-- PV, DEC succeeded and no error was raised since (R10, R13). -/
  pv : Bool
  /-- ERR (R14, R70). -/
  err : Err
  /-- STRICT, a strap that nothing writes (R14; log entry 1). -/
  strict : Bool
  /-- What is presented at the coming steps, the next one first (R6; log entry 3). -/
  inputs : List Event
  /-- The host's state (R56). -/
  mode : HostMode
  /-- The host's elapsed time since boot (R56). -/
  elapsed : Nat
  /-- The host's place in the poll cycle (R58). -/
  phase : Phase
  /-- The concentration the host reports, -1 for "not available" (R57, R60). -/
  report : Int
  /-- Bytes the host has placed on the wire, oldest first (R55). -/
  tx : List Byte
  /-- Bytes from the sensor not yet read, oldest first (R58 step 3; log entry 13). -/
  rx : List Byte
  /-- WARMUP (R5). -/
  warmup : Nat
  /-- SETTLE_DELAY (R5). -/
  settleDelay : Nat
  /-- READ_TIMEOUT, none for the reference behaviour (R5, R63). -/
  readTimeout : Option Nat
  deriving DecidableEq, Repr

/-- The machine right after reset (R16, R85) at the host's boot (R56, R57, R87; log entries 1, 9,
15, 17). -/
def State.reset : State where
  buf := []
  fill := 0
  vd := false
  csum := none
  csok := false
  ppm := none
  pv := false
  err := .noError
  strict := Config.strictDefault
  inputs := []
  mode := .warmingUp
  elapsed := 0
  phase := .transmit
  report := Config.sentinel
  tx := []
  rx := []
  warmup := Config.warmup
  settleDelay := Config.settleDelay
  readTimeout := Config.readTimeout

end Sys2Proof.Machine
end

