-- ==== Sys2Proof/Machine/Ops.lean ====
section
/-!
DEFINITION. Ops: the named operations over the buffer and the registers. The buffer's reads and
writes (R8, R24), `raise` (R72), the return from an error, which is CLR and reset (R40, R75, R85),
and the register writes of the operations.
-/

namespace Sys2Proof.Machine

/-- What a step answers. -/
abbrev Result := Host.Outcome State Fault Refusal

/-- Go on from a next state; a fault or a refusal stands. -/
def andThen (o : Result) (k : State → Result) : Result :=
  match o with
  | .next s => k s
  | .fault r => .fault r
  | .refused r => .refused r

/-- The byte listed at an offset; an offset not listed holds no value. -/
def Memory.read : Memory → Nat → Option Byte
  | [], _ => none
  | c :: m, a => if c.1 = a then some c.2 else Memory.read m a

/-- Put a byte at an offset, keeping the offsets rising. -/
def Memory.write : Memory → Nat → Byte → Memory
  | [], a, v => [(a, v)]
  | c :: m, a, v =>
    if a < c.1 then (a, v) :: c :: m
    else if a = c.1 then (a, v) :: m
    else c :: Memory.write m a v

/-- The canonical form: offsets strictly rising, and only offsets the buffer has (R20). -/
abbrev Memory.wf (m : Memory) : Prop :=
  m.Pairwise (fun c d => c.1 < d.1) ∧ ∀ c ∈ m, c.1 < Config.frameLen

/-- `MemRead(a, 1)`, defined only when `a < FILL` (R8, R15, R24). -/
def bufRead (s : State) (a : Nat) : Option Byte :=
  if a < s.fill.toNat then Memory.read s.buf a else none

/-- `MemWrite(FILL, 1, d)` and `FILL <- FILL + 1` (R24, R41). -/
def storeByte (d : Byte) (s : State) : State :=
  { s with buf := Memory.write s.buf s.fill.toNat d, fill := s.fill + 1 }

/-- The code of an error in the 3-bit register ERR (R70). -/
def Err.code : Err → BitVec 3
  | .noError => 0
  | .marker => 1
  | .checksum => 2
  | .short => 3
  | .overrun => 4
  | .order => 5
  | .illegal => 6

/-- Entering an error: `raise E_X` writes ERR, PV and PPM and nothing else (R72). -/
def raise (e : Err) (s : State) : State :=
  { s with err := e, pv := false, ppm := none }

/-- The reset values of the parser's registers (R16): the effect of CLR (R40), of `rst` (R85), and
so of the return from an error (R75). STRICT and the host are not touched (R85, R87). -/
def resetParser (s : State) : State :=
  { s with
    buf := []
    fill := 0
    vd := false
    csum := none
    csok := false
    ppm := none
    pv := false
    err := .noError }

/-- What a successful VAL writes (R45): CSUM, CSOK and VD. -/
def recordChecksum (c : Byte) (ok : Bool) (s : State) : State :=
  { s with csum := some c, csok := ok, vd := true }

/-- What a successful DEC writes (R50): PPM and PV. -/
def recordPpm (v : PpmWord) (s : State) : State :=
  { s with ppm := some v, pv := true }

end Sys2Proof.Machine
end

