-- ==== Sys2Proof/Machine/Operands.lean ====
section
/-!
DEFINITION. Operands: the values assembled from frame bytes (R34, R51) and the bytes of a frame in
the order of the wire. DATA of a command word is `cmdData` of Sys2Proof/Decode.lean.
-/

namespace Sys2Proof.Machine

/-- The concentration `{hi, lo}`, `hi * 256 + lo`, unsigned (R22, R34, R51). -/
def concentration (hi lo : Byte) : PpmWord := hi.setWidth 16 * 256 + lo.setWidth 16

/-- The bytes of a frame, the first received or transmitted first (R39, R55). -/
def frameBytes (f : Frame) : List Byte :=
  [f.b0, f.b1, f.b2, f.b3, f.b4, f.b5, f.b6, f.b7, f.b8]

/-- The two bytes DEC reads, composed (R50, R51); none where one of them holds no value. -/
def bufConcentration (s : State) : Option PpmWord :=
  match bufRead s Config.hiPos, bufRead s Config.loPos with
  | some hi, some lo => some (concentration hi lo)
  | _, _ => none

end Sys2Proof.Machine
end

