-- ==== Sys2Proof/Machine/Flags.lean ====
section
/-!
DEFINITION. Flags: FULL (R13), the checksum (R46), the flag CSOK (R13, R45), the classification of
a received frame (R33), and the parser's output ports (R7).
-/

namespace Sys2Proof.Machine

/-- FULL is the combinational value `FILL == 9` (R13). -/
def full (s : State) : Bool := s.fill == 9#4

/-- `cksum` of seven bytes, every step wrapping at 8 bits (R46). -/
def cksum (b1 b2 b3 b4 b5 b6 b7 : Byte) : Byte :=
  let s := add8 0x00 b1
  let s := add8 s b2
  let s := add8 s b3
  let s := add8 s b4
  let s := add8 s b5
  let s := add8 s b6
  let s := add8 s b7
  let t := sub8 0xFF s
  add8 t 0x01

/-- `cksum(BUF)`, over offsets CK_FIRST to CK_LAST, 1 to 7 (R4, R46); none where one of the seven
holds no value. -/
def bufCksum (s : State) : Option Byte :=
  match bufRead s 1, bufRead s 2, bufRead s 3, bufRead s 4, bufRead s 5, bufRead s 6,
    bufRead s 7 with
  | some b1, some b2, some b3, some b4, some b5, some b6, some b7 =>
    some (cksum b1 b2 b3 b4 b5 b6 b7)
  | _, _, _, _, _, _, _ => none

/-- CSOK: the computed checksum equals the received one (R13, R45). -/
def checksumOk (computed received : Byte) : Bool := computed == received

/-- `cksum` of a frame's bytes 1 to 7 (R46). -/
def frameCksum (f : Frame) : Byte := cksum f.b1 f.b2 f.b3 f.b4 f.b5 f.b6 f.b7

/-- The three classes of a received frame (R33). -/
inductive FrameClass where
  /-- b0 is not 0xFF, whatever the other bytes are. -/
  | invalid
  /-- The marker is right and b8 equals the computed checksum. -/
  | checksumGood
  /-- The marker is right and b8 differs. -/
  | checksumBad
  deriving DecidableEq, Repr

/-- The class of a frame (R33). -/
def classify (f : Frame) : FrameClass :=
  if f.b0 ≠ Config.marker then .invalid
  else if checksumOk (frameCksum f) f.b8 then .checksumGood
  else .checksumBad

/-- The parser's output ports (R7); `none` is a port that shows no defined value (R15, R93). -/
structure Outputs where
  fill : BitVec 4
  full : Bool
  vd : Bool
  csok : Bool
  csum : Option Byte
  ppm : Option PpmWord
  pv : Bool
  err : BitVec 3
  deriving DecidableEq, Repr

/-- Each port shows the register of its name (R7). -/
def outputs (s : State) : Outputs where
  fill := s.fill
  full := full s
  vd := s.vd
  csok := s.csok
  csum := s.csum
  ppm := s.ppm
  pv := s.pv
  err := s.err.code

end Sys2Proof.Machine
end

