-- ==== Sys2Proof/Machine/Concentration.lean ====
section
/-!
DEFINITION. Concentration: DEC (spec/42_decode.md).
-/

namespace Sys2Proof.Machine

/-- DEC (R50): E_SHORT, then E_ORDER, then under STRICT = 1 E_CHECKSUM; else the composed pair,
whatever its value. -/
def execDec (s : State) : Result :=
  if s.err ≠ .noError then .next s
  else if ¬ full s then .next (raise .short s)
  else if ¬ s.vd then .next (raise .order s)
  else if ¬ s.csok ∧ s.strict then .next (raise .checksum s)
  else match bufConcentration s with
    | some v => .next (recordPpm v s)
    | none => .fault (.noValue Config.hiPos)

end Sys2Proof.Machine
end

