-- ==== Sys2Proof/Machine/Reception.lean ====
section
/-!
DEFINITION. Reception: CLR and PUSH (spec/40_frame_reception.md).
-/

namespace Sys2Proof.Machine

/-- CLR (R40): performed whatever ERR is; never an error. -/
def execClr (s : State) : Result := .next (resetParser s)

/-- PUSH d (R41): ignored while ERR is not 0; E_OVERRUN on a tenth byte; else the byte is stored at
offset FILL, whatever it is. FILL from 10 to 15 is never reached (R12) and stops (log entry 7). -/
def execPush (d : Byte) (s : State) : Result :=
  if s.err ≠ .noError then .next s
  else if full s then .next (raise .overrun s)
  else if s.fill.toNat < Config.frameLen then .next (storeByte d s)
  else .fault (.noSuchOffset s.fill.toNat)

end Sys2Proof.Machine
end

