-- ==== Sys2Proof/Machine/Frames.lean ====
section
/-!
DEFINITION. Frames: the two frame rows of the opcode table. A Response Frame is consumed through
nine PUSH words (R31, R39); the Command Frame is what the host writes to the serial channel (R55).
-/

namespace Sys2Proof.Machine

/-- PUSH each byte in order (R39, `FRAME`). -/
def pushAll : List Byte → State → Result
  | [], s => .next s
  | b :: bs, s => andThen (execPush b s) (pushAll bs)

/-- The host places bytes on the wire, in order; no error path (R55). -/
def sendBytes (bs : List Byte) (s : State) : State := { s with tx := s.tx ++ bs }

/-- RESPONSE_FRAME: its nine bytes pushed, the first received first (R31, R39; log entry 4). -/
def execResponseFrame (f : Frame) (s : State) : Result := pushAll (frameBytes f) s

/-- COMMAND_FRAME: the nine fixed bytes go out; the parser is not involved (R32, R55; log entry 5). -/
def execCommandFrame (s : State) : Result :=
  .next (sendBytes (frameBytes (frameOfWord Config.cmdFrame)) s)

end Sys2Proof.Machine
end

