-- ==== Sys2Proof/Machine/Validate.lean ====
section
/-!
DEFINITION. Validate: VAL (spec/41_validate.md).
-/

namespace Sys2Proof.Machine

/-- VAL (R45): the marker is tested before anything else is read; the computed checksum is always
delivered when it is right, and a mismatch is recorded in CSOK, never an error (R48). -/
def execVal (s : State) : Result :=
  if s.err ≠ .noError then .next s
  else if ¬ full s then .next (raise .short s)
  else match bufRead s Config.markerPos with
    | none => .fault (.noValue Config.markerPos)
    | some b0 =>
      if b0 ≠ Config.marker then .next (raise .marker s)
      else match bufCksum s, bufRead s Config.ckPos with
        | some c, some b8 => .next (recordChecksum c (checksumOk c b8) s)
        | none, _ => .fault (.noValue Config.ckFirst)
        | some _, none => .fault (.noValue Config.ckPos)

end Sys2Proof.Machine
end

