-- ==== Sys2Proof/Machine/Dispatch.lean ====
section
/-!
DEFINITION. Dispatch: one arm per instruction.
-/

namespace Sys2Proof.Machine

def exec (i : Instr) (s : State) : Host.Outcome State Fault Refusal :=
  match i with
  | .clr => Sys2Proof.Machine.execClr s
  | .push d => Sys2Proof.Machine.execPush d s
  | .val => Sys2Proof.Machine.execVal s
  | .dec => Sys2Proof.Machine.execDec s
  | .responseFrame f => Sys2Proof.Machine.execResponseFrame f s
  | .commandFrame => Sys2Proof.Machine.execCommandFrame s

end Sys2Proof.Machine
end

