-- ==== Sys2Proof/Machine/Pins.lean ====
section
/-!
DEFINITION. Pins: what the parser does with its input pins at one step (R7, R36, R74, R85).
-/

namespace Sys2Proof.Machine

/-- A reserved command word: E_ILLEGAL while ERR is 0, ignored otherwise (R36, R73; log entry 20). -/
def reservedWord (s : State) : State :=
  if s.err ≠ .noError then s else raise .illegal s

/-- A command word presented with `cmd_valid` = 1 and `rst` = 0 (R74 items 3 to 6). -/
def presentWord (w : CmdWord) (s : State) : Result :=
  match Sys2Proof.decode (.cmd w) with
  | .ok i => exec i s
  | .error _ => .next (reservedWord s)

/-- One step of the pins in the order of R74: `rst` wins, then `cmd_valid`. -/
def presentPins (rst cmdValid : Bool) (w : CmdWord) (s : State) : Result :=
  if rst then .next (resetParser s)
  else if cmdValid then presentWord w s
  else .next s

/-- FRAME (R39): a RESPONSE_FRAME is run; nine bytes whose first is not the marker are pushed just
the same, since PUSH does not look at the byte (R41). -/
def presentFrame (F : FrameWord) (s : State) : Result :=
  match Sys2Proof.decode (.rx F) with
  | .ok i => exec i s
  | .error _ => pushAll (frameBytes (frameOfWord F)) s

end Sys2Proof.Machine
end

