-- ==== Sys2Proof/Machine/PollCycle.lean ====
section
/-!
DEFINITION. PollCycle: the documented host (spec/43_host_poll_cycle.md), one move a turn: the
warm-up, the six steps of R58, the plausibility check, the reported value, the read time-out.
-/

namespace Sys2Proof.Machine

/-- The host accepts a decoded value iff it is at most the ceiling, as an unsigned number (R59). -/
def plausible (v : PpmWord) : Bool := decide (v.toNat ≤ Config.ppmCeiling)

/-- The host's reported concentration (R60). -/
def conc (s : State) : Int :=
  match s.ppm with
  | some v =>
    if s.err = .noError ∧ s.pv ∧ plausible v ∧ s.mode = .ready then (v.toNat : Int)
    else Config.sentinel
  | none => Config.sentinel

/-- The cycle is abandoned: the sentinel is reported and the next cycle begins (R58, R61). -/
def abandon (s : State) : State := { s with report := Config.sentinel, phase := .transmit }

/-- The host goes on to a step of the cycle. -/
def goto (p : Phase) (s : State) : State := { s with phase := p }

/-- Steps 4 and 5 end the same way: any error abandons the cycle (R58, R76). -/
def unlessError (p : Phase) (s : State) : Result :=
  if s.err ≠ .noError then .next (abandon s) else .next (goto p s)

/-- While WARMING_UP nothing is transmitted or received and the sentinel is reported (R57); the
host is READY once `elapsed > WARMUP` (R56; 92_eei_decisions.md D26). -/
def warmUpTurn (s : State) : State :=
  if s.elapsed > s.warmup then { s with report := Config.sentinel, mode := .ready }
  else { s with report := Config.sentinel }

/-- Step 3 when no byte is waiting: wait, for ever where there is no READ_TIMEOUT, or give up by
VAL or by going to the next cycle's CLR (R63; log entries 10 and 12). -/
def noByteTurn (since : Nat) (valOnTimeout : Bool) (s : State) : Result :=
  match s.readTimeout with
  | none => .next s
  | some limit =>
    if s.elapsed - since < limit then .next s
    else if valOnTimeout then andThen (exec .val s) fun t => .next (abandon t)
    else .next (abandon s)

/-- One move of the READY host (R58), by the step it stands at. -/
def readyTurn (valOnTimeout : Bool) (s : State) : Result :=
  match s.phase with
  | .transmit => andThen (exec .commandFrame s) fun t => .next (goto (.clear t.elapsed) t)
  | .clear since => andThen (exec .clr s) fun t => .next (goto (.settle since) t)
  | .settle since =>
    if s.elapsed - since < s.settleDelay then .next s else .next (goto (.read 0 s.elapsed) s)
  | .read got since =>
    match s.rx with
    | [] => noByteTurn since valOnTimeout s
    | b :: bs =>
      andThen (exec (.push b) { s with rx := bs }) fun t =>
        .next (goto (if got + 1 < Config.frameLen then .read (got + 1) since else .validate) t)
  | .validate => andThen (exec .val s) (unlessError .decode)
  | .decode => andThen (exec .dec s) (unlessError .check)
  | .check => .next { s with report := conc s, phase := .transmit }

/-- A turn of the Poll Cycle, `dt` time units after its last one (log entry 8). -/
def hostTurn (dt : Nat) (valOnTimeout : Bool) (s : State) : Result :=
  let s := { s with elapsed := s.elapsed + dt }
  match s.mode with
  | .warmingUp => .next (warmUpTurn s)
  | .ready => readyTurn valOnTimeout s

end Sys2Proof.Machine
end

