-- ==== Sys2Proof/Machine/Events.lean ====
section
/-!
DEFINITION. Events: what each move of the schedule does, and where a table word is presented.
-/

namespace Sys2Proof.Machine

/-- A byte from the sensor waits in the serial channel until the host reads it (R3; log entry 13). -/
def receiveByte (b : Byte) (s : State) : State := { s with rx := s.rx ++ [b] }

/-- What an event does. -/
def runEvent (e : Event) (s : State) : Result :=
  match e with
  | .pins rst cmdValid w => presentPins rst cmdValid w s
  | .frame F => presentFrame F s
  | .transmit => exec .commandFrame s
  | .serial b => .next (receiveByte b s)
  | .turn dt valOnTimeout => hostTurn dt valOnTimeout s

/-- The event that presents what is on a wire: a command word with `cmd_valid` = 1, a frame from
the sensor, or the host's transmission. -/
def eventOfWire : Wire → Event
  | .cmd w => .pins false true w
  | .rx F => .frame F
  | .tx _ => .transmit

/-- A schedule with one more event before the others. -/
def present (e : Event) (s : State) : State := { s with inputs := e :: s.inputs }

/-- A program of command words, one a step (R6). -/
def loadWords (ws : List CmdWord) (s : State) : State :=
  { s with inputs := ws.map (.pins false true) ++ s.inputs }

/-- `s` with a table word presented at the next step; a word on no wire leaves it as it is. -/
def presentTableWord (s : State) (nbits w : Nat) : State :=
  match tableWire nbits w with
  | some wire => present (eventOfWire wire) s
  | none => s

/-- Take the next event of the schedule and run it; with none presented nothing changes (R6). -/
def advance (s : State) : Result :=
  match s.inputs with
  | [] => .next s
  | e :: es => runEvent e { s with inputs := es }

end Sys2Proof.Machine
end

