-- ==== Sys2Proof/Machine/Step.lean ====
section
/-!
DEFINITION. Step: one step of the machine (R6), and where the next instruction is fetched from.
-/

namespace Sys2Proof.Machine

/-- One step (R6). -/
def step (s : State) : Host.Outcome State Fault Refusal := advance s

/-- `s` with a table word where `step` takes its next instruction (log entry 3). -/
def State.withFetchWord (s : State) (nbits w : Nat) : State := presentTableWord s nbits w

end Sys2Proof.Machine
end

