-- ==== Sys2Proof/Machine/Assembler.lean ====
section
/-!
DEFINITION. Assembler: the notation in which the spec writes programs (R38) and its
pseudo-instructions (R39), to command words. Text is a list of characters, one line at a time.
-/

namespace Sys2Proof.Machine

/-- A line of a program: an operation (R38) or a pseudo-instruction (R39). -/
inductive AsmLine where
  | clr
  | push (d : Byte)
  | val
  | dec
  /-- `FRAME b0 ... b8`; shorter lists too, as program P9 writes one (log entry 21). -/
  | frame (bs : List Byte)
  /-- `PARSE`. -/
  | parse
  /-- `POLL b0 ... b8`. -/
  | poll (f : Frame)
  deriving DecidableEq, Repr

/-- `FRAME` is nine PUSHes in order, `PARSE` is VAL then DEC, `POLL` is CLR, FRAME, PARSE (R39). -/
def AsmLine.expand : AsmLine → List Instr
  | .clr => [.clr]
  | .push d => [.push d]
  | .val => [.val]
  | .dec => [.dec]
  | .frame bs => bs.map .push
  | .parse => [.val, .dec]
  | .poll f => .clr :: (frameBytes f).map .push ++ [.val, .dec]

/-- The command word of an operation; a frame row has none. -/
def wordOf (i : Instr) : Option CmdWord :=
  match encode i with
  | .cmd w => some w
  | .rx _ => none
  | .tx _ => none

/-- The command words of a program (R38, R39). -/
def assemble (lines : List AsmLine) : List CmdWord :=
  (lines.flatMap AsmLine.expand).filterMap wordOf

/-- The value of a hexadecimal digit, of either case (log entry 21). -/
def hexDigit (c : Char) : Option Nat :=
  let n := c.toNat
  if 48 ≤ n ∧ n ≤ 57 then some (n - 48)
  else if 65 ≤ n ∧ n ≤ 70 then some (n - 55)
  else if 97 ≤ n ∧ n ≤ 102 then some (n - 87)
  else none

/-- A byte written as two hexadecimal digits (R39). -/
def readHexByte (cs : List Char) : Option Byte :=
  match cs with
  | [hi, lo] =>
    match hexDigit hi, hexDigit lo with
    | some h, some l => some (BitVec.ofNat 8 (16 * h + l))
    | _, _ => none
  | _ => none

/-- The operand of PUSH, `0xNN` (R38). -/
def readOperand (cs : List Char) : Option Byte :=
  match cs with
  | '0' :: 'x' :: ds => readHexByte ds
  | _ => none

/-- The line up to the first `;` (R38: a comment runs from `;` to the end of the line). -/
def stripComment (cs : List Char) : List Char := cs.takeWhile (· ≠ ';')

/-- The words of a line between blanks; `w` is the word being read, last character first. -/
def splitWords : List Char → List Char → List (List Char)
  | [], w => if w.isEmpty then [] else [w.reverse]
  | c :: cs, w =>
    if c = ' ' ∨ c = '\t' then
      if w.isEmpty then splitWords cs [] else w.reverse :: splitWords cs []
    else splitWords cs (c :: w)

/-- Bytes written as words of two digits (R39). -/
def readBytes : List (List Char) → Option (List Byte)
  | [] => some []
  | w :: ws =>
    match readHexByte w, readBytes ws with
    | some b, some bs => some (b :: bs)
    | _, _ => none

/-- The operands of FRAME: at least one byte, at most nine (R39; log entry 21). -/
def readFrameBytes (ws : List (List Char)) : Option (List Byte) :=
  if ws.isEmpty ∨ ws.length > Config.frameLen then none else readBytes ws

/-- The operands of POLL: nine bytes (R39). -/
def readFrame (ws : List (List Char)) : Option Frame :=
  match readBytes ws with
  | some [b0, b1, b2, b3, b4, b5, b6, b7, b8] => some { b0, b1, b2, b3, b4, b5, b6, b7, b8 }
  | _ => none

/-- The line a list of words is, if any. -/
def readWords (ws : List (List Char)) : Option AsmLine :=
  match ws with
  | [] => none
  | m :: args =>
    if m = ['C', 'L', 'R'] ∧ args = [] then some .clr
    else if m = ['V', 'A', 'L'] ∧ args = [] then some .val
    else if m = ['D', 'E', 'C'] ∧ args = [] then some .dec
    else if m = ['P', 'A', 'R', 'S', 'E'] ∧ args = [] then some .parse
    else if m = ['F', 'R', 'A', 'M', 'E'] then (readFrameBytes args).map .frame
    else if m = ['P', 'O', 'L', 'L'] then (readFrame args).map .poll
    else if m = ['P', 'U', 'S', 'H'] then
      match args with
      | [a] => (readOperand a).map .push
      | _ => none
    else none

/-- One line of text; `none` within for a line that is blank or only a comment. -/
def readLine (cs : List Char) : Option (Option AsmLine) :=
  match splitWords (stripComment cs) [] with
  | [] => some none
  | w :: ws => (readWords (w :: ws)).map some

/-- A program of text lines to its command words; none where a line is not of R38 or R39. -/
def assembleText : List (List Char) → Option (List CmdWord)
  | [] => some []
  | l :: ls =>
    match readLine l, assembleText ls with
    | some (some a), some ws => some (assemble [a] ++ ws)
    | some none, some ws => some ws
    | _, _ => none

end Sys2Proof.Machine
end

