-- ==== Sys2Proof/Safety.lean ====
section
/-!
DEFINITION. Safety: the invariants of 10_state.md R17 and R15, each a clause of its own; what a
usable reading is (R17 item 4); the parser's registers apart from the rest of the machine.
-/

namespace Sys2Proof.Machine

/-- `n` steps, stopping at a fault or a refusal (R6: a program's run ends after its last word); the
host's `Host.Core.run` at this machine (Laws/Run.lean proves them equal). -/
def runSteps : Nat → State → Result
  | 0, s => .next s
  | n + 1, s => andThen (step s) (runSteps n)

/-- The parser's registers agree in two states (the eight items of R10). -/
abbrev sameParser (s t : State) : Prop :=
  t.buf = s.buf ∧ t.fill = s.fill ∧ t.vd = s.vd ∧ t.csum = s.csum ∧ t.csok = s.csok ∧
    t.ppm = s.ppm ∧ t.pv = s.pv ∧ t.err = s.err

/-- Everything that is not a register of the parser agrees in two states. -/
abbrev sameOutside (s t : State) : Prop :=
  t.strict = s.strict ∧ t.inputs = s.inputs ∧ t.mode = s.mode ∧ t.elapsed = s.elapsed ∧
    t.phase = s.phase ∧ t.report = s.report ∧ t.tx = s.tx ∧ t.rx = s.rx ∧
    t.warmup = s.warmup ∧ t.settleDelay = s.settleDelay ∧ t.readTimeout = s.readTimeout

/-- The registers after reset or CLR (R16). -/
abbrev parserClear (s : State) : Prop := sameParser State.reset s

/-- R17 item 1. -/
abbrev FillInRange (s : State) : Prop := s.fill.toNat ≤ Config.frameLen

/-- Exactly the offsets below FILL hold a value, in rising order (R15, R24). -/
abbrev BufHoldsFill (s : State) : Prop := s.buf.map Prod.fst = List.range s.fill.toNat

/-- R17 item 2. -/
abbrev ValidatedMeansChecked (s : State) : Prop :=
  s.vd = true →
    s.fill = 9#4 ∧ bufRead s 0 = some Config.marker ∧ s.csum.isSome ∧ s.csum = bufCksum s ∧
      s.csok = decide (s.csum = bufRead s 8)

/-- R17 item 3, and CSUM holds no value while VD = 0 (R15). -/
abbrev NotValidatedMeansNothing (s : State) : Prop :=
  s.vd = false → s.csok = false ∧ s.pv = false ∧ s.csum = none

/-- R17 item 4, and PPM holds no value while PV = 0 (R15). -/
abbrev ReadingMeansDecoded (s : State) : Prop :=
  (s.pv = true →
    s.vd = true ∧ s.err = .noError ∧ s.ppm.isSome ∧ s.ppm = bufConcentration s ∧
      (s.strict = true → s.csok = true)) ∧
  (s.pv = false → s.ppm = none)

/-- R17 items 5 to 8. -/
abbrev ErrorMeansCause (s : State) : Prop :=
  (s.err = .marker → s.fill = 9#4 ∧ bufRead s 0 ≠ some Config.marker ∧ s.vd = false) ∧
  (s.err = .checksum → s.strict = true ∧ s.vd = true ∧ s.csok = false) ∧
  (s.err = .short → s.fill.toNat < 9) ∧
  (s.err = .overrun → s.fill = 9#4) ∧
  (s.err = .order → s.fill = 9#4 ∧ s.vd = false)

/-- R17 items 1 to 9 (item 9 by the type of ERR, item 10 is about a step), with R15. -/
abbrev ParserInv (s : State) : Prop :=
  FillInRange s ∧ BufHoldsFill s ∧ ValidatedMeansChecked s ∧ NotValidatedMeansNothing s ∧
    ReadingMeansDecoded s ∧ ErrorMeansCause s

/-- The host's report is the sentinel or a plausible concentration (R57, R59, R60). -/
abbrev ReportPlausible (s : State) : Prop :=
  s.report = Config.sentinel ∨ (0 ≤ s.report ∧ s.report ≤ Config.ppmCeiling)

/-- The host that is WARMING_UP has not transmitted and reports the sentinel (R57). -/
abbrev WarmingUpReportsSentinel (s : State) : Prop :=
  s.mode = .warmingUp → s.report = Config.sentinel

end Sys2Proof.Machine
end

