-- ==== Sys2Proof/Certificates/Slice0/Obligations.lean ====
section
/-!
DEFINITION. The statements for the provers, in the order of the spec: encodings, arithmetic, reset
and pins, the four operations, the two frames, errors, invariants, whole frames, the host.
-/

open Sys2Proof Sys2Proof.Machine

/-! ### Encodings -/

/-- Words of R35, R36 and frames of R31, R32, as 95_test_vectors.md section 2.4 decodes them. -/
def Obligations.TableWordsDecode : Prop :=
  decode (.cmd 0x100) = .ok .clr ∧ decode (.cmd 0x200) = .ok (.push 0x00) ∧
  decode (.cmd 0x2FF) = .ok (.push 0xFF) ∧ decode (.cmd 0x300) = .ok .val ∧
  decode (.cmd 0x400) = .ok .dec ∧
  decode (.cmd 0x000) = .error (.reservedOp 0) ∧ decode (.cmd 0x101) = .error (.reservedData 0x101) ∧
  decode (.cmd 0x301) = .error (.reservedData 0x301) ∧
  decode (.cmd 0x4FF) = .error (.reservedData 0x4FF) ∧
  decode (.cmd 0x500) = .error (.reservedOp 5) ∧ decode (.cmd 0x600) = .error (.reservedOp 6) ∧
  decode (.cmd 0x7FF) = .error (.reservedOp 7) ∧
  decode (.rx 0xFF8603E8000000008F) = .ok (.responseFrame
    { b0 := 0xFF, b1 := 0x86, b2 := 0x03, b3 := 0xE8, b4 := 0, b5 := 0, b6 := 0, b7 := 0,
      b8 := 0x8F }) ∧
  decode (.rx 0xFE8603E8000000008F) = .error (.wrongMarker 0xFE) ∧
  decode (.tx 0xFF0186000000000079) = .ok .commandFrame

/-- Decoding the encoding of a well-formed instruction gives it back, operands and all. -/
def Obligations.DecodeOfEncodeIsIdentity : Prop :=
  ∀ i : Instr, i.wellFormed = true → decode (encode i) = .ok i

/-- Every accepted word is the encoding of exactly the well-formed instruction it decodes to. -/
def Obligations.EncodeOfDecodeIsIdentity : Prop :=
  ∀ (w : Wire) (i : Instr), decode w = .ok i → i.wellFormed = true ∧ encode i = w

/-- R36: which command words are reserved, how many, and what one does. That E_ILLEGAL clears PV and
PPM too is R72's raise, as log entry 20 reads R36 with it. -/
def Obligations.ReservedWordsRaiseIllegal : Prop :=
  (∀ w : CmdWord, (∃ e, decode (.cmd w) = .error e) ↔
    (cmdOp w ∈ [0b000, 0b101, 0b110, 0b111] ∨
      (cmdOp w ∈ [0b001, 0b011, 0b100] ∧ cmdData w ≠ 0x00))) ∧
  ((List.range 2048).countP fun n => !(decode (.cmd (BitVec.ofNat 11 n))).toBool) = 1789 ∧
  ((List.range 2048).countP fun n => (decode (.cmd (BitVec.ofNat 11 n))).toBool) = 259 ∧
  ((List.range 2048).countP fun n =>
    decide (cmdOp (BitVec.ofNat 11 n) ∈ [0b000, 0b101, 0b110, 0b111])) = 1024 ∧
  ((List.range 2048).countP fun n =>
    decide (cmdOp (BitVec.ofNat 11 n) ∈ [0b001, 0b011, 0b100] ∧
      cmdData (BitVec.ofNat 11 n) ≠ 0x00)) = 765 ∧
  (∃ e, decode (.cmd 0x000) = .error e) ∧
  (∀ (s : State) (es : List Event) (w : CmdWord) (e : DecodeError),
    s.inputs = .pins false true w :: es → decode (.cmd w) = .error e →
      (s.err = .noError →
        step s = .next { s with inputs := es, err := .illegal, pv := false, ppm := none }) ∧
      (s.err ≠ .noError → step s = .next { s with inputs := es })) ∧
  (∀ w : CmdWord, cmdOp w = 0b001 → cmdData w ≠ 0x00 → ∃ e, decode (.cmd w) = .error e)

/-! ### Arithmetic -/

/-- R46: the checksum, every step at 8 bits, as the document's formula gives it; its worked example;
and that `cksum(BUF)` is over offsets 1 to 7, so neither the marker nor the received checksum. -/
def Obligations.ChecksumStepByStep : Prop :=
  (∀ b1 b2 b3 b4 b5 b6 b7 : Byte,
    let s := add8 (add8 (add8 (add8 (add8 (add8 (add8 0x00 b1) b2) b3) b4) b5) b6) b7
    let sum := b1.toNat + b2.toNat + b3.toNat + b4.toNat + b5.toNat + b6.toNat + b7.toNat
    cksum b1 b2 b3 b4 b5 b6 b7 = add8 (sub8 0xFF s) 0x01 ∧
    s.toNat = sum % 256 ∧
    (cksum b1 b2 b3 b4 b5 b6 b7).toNat = (255 - sum % 256 + 1) % 256) ∧
  (∀ a b : Byte, (add8 a b).toNat = (a.toNat + b.toNat) % 256 ∧
    ((sub8 a b).toNat : Int) = ((a.toNat : Int) - b.toNat) % 256) ∧
  cksum 0x01 0x86 0x00 0x00 0x00 0x00 0x00 = 0x79 ∧
  (∀ (s : State) (b1 b2 b3 b4 b5 b6 b7 : Byte),
    bufRead s 1 = some b1 → bufRead s 2 = some b2 → bufRead s 3 = some b3 →
    bufRead s 4 = some b4 → bufRead s 5 = some b5 → bufRead s 6 = some b6 →
    bufRead s 7 = some b7 → bufCksum s = some (cksum b1 b2 b3 b4 b5 b6 b7))

/-- The arithmetic laws (a) to (e) that 41_validate.md section 2 marks as derived from R46. -/
def Obligations.ChecksumLaws : Prop :=
  (∀ b1 b2 b3 b4 b5 b6 b7 : Byte,
    let sum := b1.toNat + b2.toNat + b3.toNat + b4.toNat + b5.toNat + b6.toNat + b7.toNat
    let s := add8 (add8 (add8 (add8 (add8 (add8 (add8 0x00 b1) b2) b3) b4) b5) b6) b7
    let c := cksum b1 b2 b3 b4 b5 b6 b7
    sum ≤ 1785 ∧
    (sub8 0xFF s).toNat = 255 - sum % 256 ∧ sub8 0xFF s = ~~~s ∧
    c.toNat = (256 - sum % 256) % 256 ∧ c = -s ∧ (c = 0x00 ↔ sum % 256 = 0) ∧
    add8 s c = 0x00 ∧
    (∀ b8 : Byte, checksumOk c b8 = true ↔ (sum + b8.toNat) % 256 = 0) ∧
    (c.toNat : Int) = ((255 - (sum : Int)) % 256 + 1) % 256) ∧
  (∀ b1 b2 b3 b4 b5 b6 b7 b1' b2' b3' b4' b5' b6' b7' : Byte,
    [b1', b2', b3', b4', b5', b6', b7'].Perm [b1, b2, b3, b4, b5, b6, b7] →
      cksum b1' b2' b3' b4' b5' b6' b7' = cksum b1 b2 b3 b4 b5 b6 b7)

/-- R51: the composed value, as a number and in bits (the last line of the bits is the spec's own
inference). -/
def Obligations.ConcentrationIsBigEndian : Prop :=
  (∀ hi lo : Byte,
    let v := concentration hi lo
    v.toNat = hi.toNat * 256 + lo.toNat ∧ hi.toNat * 256 + lo.toNat ≤ 65535 ∧
    v.extractLsb' 8 8 = hi ∧ v.extractLsb' 0 8 = lo ∧
    v = (hi.setWidth 16 <<< 8) ||| lo.setWidth 16) ∧
  (concentration 0x03 0xE8).toNat = 1000 ∧ (concentration 0x00 0x00).toNat = 0 ∧
  (concentration 0xFF 0xFF).toNat = 65535

/-! ### Reset, pins and the step -/

/-- R16: the registers after reset, after CLR and after a step with `rst` = 1; STRICT unchanged. -/
def Obligations.ResetAndClrValues : Prop :=
  let clear := fun s : State =>
    s.fill = 0#4 ∧ s.vd = false ∧ s.csok = false ∧ s.pv = false ∧ s.err.code = 0 ∧
      (∀ a, Memory.read s.buf a = none ∧ bufRead s a = none) ∧ s.csum = none ∧ s.ppm = none
  clear State.reset ∧
  (∀ s : State, ∃ t, exec .clr s = .next t ∧ clear t ∧ t.strict = s.strict) ∧
  (∀ (s : State) (es : List Event) (cv : Bool) (w : CmdWord), s.inputs = .pins true cv w :: es →
    ∃ t, step s = .next t ∧ clear t ∧ t.strict = s.strict)

/-- R40, R75, R85: in every state CLR completes, with exactly the effect of reset on the parser and
none on anything else; on a clear parser it changes nothing. -/
def Obligations.ClrIsReset : Prop :=
  (∀ s : State, ∃ t, exec .clr s = .next t ∧ parserClear t ∧ sameOutside s t) ∧
  (∀ s : State, parserClear s → exec .clr s = .next s) ∧
  (∀ (s : State) (es : List Event) (cv : Bool) (w : CmdWord), s.inputs = .pins true cv w :: es →
    step s = exec .clr { s with inputs := es })

/-- R6: with no operation presented a step changes nothing. -/
def Obligations.NoOperationChangesNothing : Prop :=
  (∀ (s : State) (es : List Event) (w : CmdWord), s.inputs = .pins false false w :: es →
    step s = .next { s with inputs := es }) ∧
  (∀ s : State, s.inputs = [] → step s = .next s)

/-- R74: the order in which one step of the pins is decided. -/
def Obligations.PinPriority : Prop :=
  ∀ (s : State) (es : List Event) (rst cv : Bool) (w : CmdWord), s.inputs = .pins rst cv w :: es →
    let u := { s with inputs := es }
    step s =
      if rst = true then exec .clr u
      else if cv = false then .next u
      else if w = 0x100#11 then exec .clr u
      else if s.err ≠ .noError then .next u
      else match decode (.cmd w) with
        | .error _ => .next { u with err := .illegal, pv := false, ppm := none }
        | .ok i => exec i u

/-- A step runs the instruction that what is presented decodes to, on the state with that event
taken; the model's schedule (log entry 3). -/
def Obligations.StepRunsDecodedInstruction : Prop :=
  (∀ (s : State) (es : List Event) (w : CmdWord) (i : Instr),
    s.inputs = .pins false true w :: es → decode (.cmd w) = .ok i →
      step s = exec i { s with inputs := es }) ∧
  (∀ (s : State) (es : List Event) (F : FrameWord) (i : Instr),
    s.inputs = .frame F :: es → decode (.rx F) = .ok i →
      step s = exec i { s with inputs := es }) ∧
  (∀ (s : State) (es : List Event) (i : Instr),
    s.inputs = .transmit :: es → decode (.tx Config.cmdFrame) = .ok i →
      step s = exec i { s with inputs := es })

/-- R37, R41, R92: a frame presented pushes its nine bytes whatever byte 0 is, with every effect those
PUSHes have; on an empty buffer a wrong marker is stored at offset 0 like any byte, and raises
E_MARKER at the VAL that follows (log entries 4 and 24). -/
def Obligations.FrameEventPushesNineBytes : Prop :=
  (∀ (s : State) (es : List Event) (F : FrameWord), s.inputs = .frame F :: es →
    step s = exec (.responseFrame (frameOfWord F)) { s with inputs := es }) ∧
  (∀ (s : State) (es : List Event) (F : FrameWord) (e : DecodeError), s.inputs = .frame F :: es →
    decode (.rx F) = .error e → s.err = .noError → s.fill = 0#4 →
      ∃ t, step s = .next t ∧ t.fill = 9#4 ∧
        (∀ a, a < 9 → bufRead t a = (frameBytes (frameOfWord F))[a]?) ∧
        exec .val t = .next { t with err := .marker, pv := false, ppm := none })

/-- R3, R92: a byte from the sensor joins the end of the serial channel and changes nothing else; the
queue without bound or loss is the model's choice (log entry 13). -/
def Obligations.SerialByteWaits : Prop :=
  ∀ (s : State) (es : List Event) (b : Byte), s.inputs = .serial b :: es →
    step s = .next { s with inputs := es, rx := s.rx ++ [b] }

/-- A table word placed by `withFetchWord` is run by the next step. -/
def Obligations.FetchWordRunsNext : Prop :=
  ∀ (s : State) (nbits w : Nat) (i : Instr), decodeTableWord nbits w = some i →
    step (s.withFetchWord nbits w) = exec i s

/-- R7: each output port shows the register of its name, FULL is `FILL == 9`. -/
def Obligations.OutputsShowRegisters : Prop :=
  ∀ s : State,
    (outputs s).fill = s.fill ∧ ((outputs s).full = true ↔ s.fill = 9#4) ∧ (outputs s).vd = s.vd ∧
    (outputs s).csok = s.csok ∧ (outputs s).csum = s.csum ∧ (outputs s).ppm = s.ppm ∧
    (outputs s).pv = s.pv ∧ (outputs s).err = s.err.code ∧
    ((outputs s).err = 0 ↔ s.err = .noError) ∧ (outputs s).err ≠ 7

/-! ### The four operations -/

/-- R41: PUSH in every state of FILL 0 to 9: ignored, E_OVERRUN, or the byte stored, with the whole
frame of each. -/
def Obligations.PushMeaning : Prop :=
  (∀ d : Byte, decode (.cmd (0x200 + d.setWidth 11)) = .ok (.push d)) ∧
  (∀ (d : Byte) (s : State), s.err ≠ .noError → exec (.push d) s = .next s) ∧
  (∀ (d : Byte) (s : State), s.err = .noError → s.fill = 9#4 →
    exec (.push d) s = .next { s with err := .overrun, pv := false, ppm := none }) ∧
  (∀ (d : Byte) (s : State), s.err = .noError → s.fill.toNat < 9 →
    ∃ t, exec (.push d) s = .next t ∧
      t.fill.toNat = s.fill.toNat + 1 ∧ (full t = true ↔ s.fill = 8#4) ∧
      bufRead t s.fill.toNat = some d ∧
      (∀ a, a ≠ s.fill.toNat → bufRead t a = bufRead s a) ∧
      (∀ a, a ≠ s.fill.toNat → Memory.read t.buf a = Memory.read s.buf a) ∧
      t.vd = s.vd ∧ t.csum = s.csum ∧ t.csok = s.csok ∧ t.ppm = s.ppm ∧ t.pv = s.pv ∧
      t.err = s.err ∧ sameOutside s t)

/-- Where the model stops, the model's own choice (log entry 7): a write at an offset the buffer does
not have, and a read of a byte that holds no value, of those the operation reaches: for VAL byte 0,
then under the right marker bytes 1 to 8; for DEC bytes 2 and 3. No state in which any instruction
stops meets the invariants of R17. -/
def Obligations.StopsOutsideTheInvariant : Prop :=
  (∀ (d : Byte) (s : State), s.err = .noError → 9 < s.fill.toNat →
    exec (.push d) s = .fault (.noSuchOffset s.fill.toNat)) ∧
  (∀ (f : Frame) (s : State), s.err = .noError → 9 < s.fill.toNat →
    exec (.responseFrame f) s = .fault (.noSuchOffset s.fill.toNat)) ∧
  (∀ s : State, s.err = .noError → s.fill = 9#4 → bufRead s 0 = none →
    exec .val s = .fault (.noValue 0)) ∧
  (∀ s : State, s.err = .noError → s.fill = 9#4 → bufRead s 0 = some 0xFF#8 → bufCksum s = none →
    exec .val s = .fault (.noValue 1)) ∧
  (∀ (s : State) (c : Byte), s.err = .noError → s.fill = 9#4 → bufRead s 0 = some 0xFF#8 →
    bufCksum s = some c → bufRead s 8 = none → exec .val s = .fault (.noValue 8)) ∧
  (∀ s : State, s.err = .noError → s.fill = 9#4 → s.vd = true →
    (s.strict = false ∨ s.csok = true) → bufConcentration s = none →
    exec .dec s = .fault (.noValue 2)) ∧
  (∀ (i : Instr) (s : State) (r : Fault), exec i s = .fault r → ¬ ParserInv s)

/-- R45, R48: VAL, error by error and on success, the whole next state each time; a mismatch is no
error; repeating it changes nothing. -/
def Obligations.ValMeaning : Prop :=
  decode (.cmd 0x300) = .ok .val ∧
  (∀ s : State, s.err ≠ .noError → exec .val s = .next s) ∧
  (∀ s : State, s.err = .noError → s.fill ≠ 9#4 →
    exec .val s = .next { s with err := .short, pv := false, ppm := none }) ∧
  (∀ (s : State) (b0 : Byte), s.err = .noError → s.fill = 9#4 → bufRead s 0 = some b0 → b0 ≠ 0xFF#8 →
    exec .val s = .next { s with err := .marker, pv := false, ppm := none }) ∧
  (∀ (s : State) (b1 b2 b3 b4 b5 b6 b7 b8 : Byte), s.err = .noError → s.fill = 9#4 →
    bufRead s 0 = some 0xFF#8 → bufRead s 1 = some b1 → bufRead s 2 = some b2 →
    bufRead s 3 = some b3 → bufRead s 4 = some b4 → bufRead s 5 = some b5 →
    bufRead s 6 = some b6 → bufRead s 7 = some b7 → bufRead s 8 = some b8 →
    exec .val s = .next { s with
      csum := some (cksum b1 b2 b3 b4 b5 b6 b7)
      csok := decide (cksum b1 b2 b3 b4 b5 b6 b7 = b8)
      vd := true }) ∧
  (∀ s t : State, exec .val s = .next t → exec .val t = .next t) ∧
  (∀ s : State, ParserInv s → s.vd = true → exec .val s = .next s)

/-- R50: DEC, error by error in their order and on success, the whole next state each time, for
both values of STRICT; repeating it changes nothing. -/
def Obligations.DecMeaning : Prop :=
  decode (.cmd 0x400) = .ok .dec ∧
  (∀ s : State, s.err ≠ .noError → exec .dec s = .next s) ∧
  (∀ s : State, s.err = .noError → s.fill ≠ 9#4 →
    exec .dec s = .next { s with err := .short, pv := false, ppm := none }) ∧
  (∀ s : State, s.err = .noError → s.fill = 9#4 → s.vd = false →
    exec .dec s = .next { s with err := .order, pv := false, ppm := none }) ∧
  (∀ s : State, s.err = .noError → s.fill = 9#4 → s.vd = true → s.strict = true → s.csok = false →
    exec .dec s = .next { s with err := .checksum, pv := false, ppm := none }) ∧
  (∀ (s : State) (hi lo : Byte), s.err = .noError → s.fill = 9#4 → s.vd = true →
    (s.strict = false ∨ s.csok = true) → bufRead s 2 = some hi → bufRead s 3 = some lo →
    ∃ v : PpmWord, v.toNat = hi.toNat * 256 + lo.toNat ∧
      exec .dec s = .next { s with ppm := some v, pv := true }) ∧
  (∀ s t : State, exec .dec s = .next t → exec .dec t = .next t)

/-! ### The two frames -/

/-- R31, R39: a Response Frame on an empty buffer fills it, byte i at offset i, and changes nothing
else; with bytes already there the buffer fills and the first byte too many raises E_OVERRUN; while
ERR is not 0 all nine are ignored. One step for nine is the model's choice (log entry 4). -/
def Obligations.ResponseFrameFillsBuffer : Prop :=
  (∀ (f : Frame) (s : State), s.err = .noError → s.fill = 0#4 →
    ∃ t, exec (.responseFrame f) s = .next t ∧ t.fill = 9#4 ∧
      (∀ a, a < 9 → bufRead t a = (frameBytes f)[a]?) ∧
      (∀ a, 9 ≤ a → Memory.read t.buf a = Memory.read s.buf a) ∧
      t.vd = s.vd ∧ t.csum = s.csum ∧ t.csok = s.csok ∧ t.ppm = s.ppm ∧ t.pv = s.pv ∧
      t.err = s.err ∧ sameOutside s t) ∧
  (∀ (f : Frame) (s : State), s.err = .noError → 0 < s.fill.toNat → s.fill.toNat ≤ 9 →
    ∃ t, exec (.responseFrame f) s = .next t ∧ t.fill = 9#4 ∧ t.err = .overrun ∧ t.pv = false ∧
      t.ppm = none ∧
      (∀ a, a < s.fill.toNat → bufRead t a = bufRead s a) ∧
      (∀ a, s.fill.toNat ≤ a → a < 9 → bufRead t a = (frameBytes f)[a - s.fill.toNat]?) ∧
      (∀ a, a < s.fill.toNat ∨ 9 ≤ a → Memory.read t.buf a = Memory.read s.buf a) ∧
      t.vd = s.vd ∧ t.csum = s.csum ∧ t.csok = s.csok ∧ sameOutside s t) ∧
  (∀ (f : Frame) (s : State), s.err ≠ .noError → exec (.responseFrame f) s = .next s)

/-- R39: a Response Frame in one step is the nine PUSH words of `FRAME` in nine steps, in every
state, whatever they answer. -/
def Obligations.FrameIsNinePushSteps : Prop :=
  ∀ (f : Frame) (s : State),
    runSteps 9 (loadWords (assemble [.frame (frameBytes f)]) s)
      = exec (.responseFrame f) s

/-- R32, R55: the Command Frame goes out byte by byte, `FF` first and `79` last, its last byte the
checksum of bytes 1 to 7; nothing else in the machine changes. -/
def Obligations.CommandFrameTransmits : Prop :=
  (∀ s : State, exec .commandFrame s =
    .next { s with tx := s.tx ++ [0xFF, 0x01, 0x86, 0x00, 0x00, 0x00, 0x00, 0x00, 0x79] }) ∧
  frameCksum (frameOfWord Config.cmdFrame) = (frameOfWord Config.cmdFrame).b8

/-! ### Errors -/

/-- R72: whichever command word raises, the step writes ERR, PV and PPM and nothing else. -/
def Obligations.ErrorEntryWritesThreeRegisters : Prop :=
  ∀ (s t : State) (es : List Event) (w : CmdWord), s.inputs = .pins false true w :: es →
    s.err = .noError → step s = .next t → t.err ≠ .noError →
      t = { s with inputs := es, err := t.err, pv := false, ppm := none }

/-- R73: while ERR is not 0 every word but `0x100` is ignored, and only CLR and reset leave. -/
def Obligations.QuiescentWhileError : Prop :=
  (∀ (s : State) (es : List Event) (w : CmdWord), s.inputs = .pins false true w :: es →
    s.err ≠ .noError → w ≠ 0x100#11 → step s = .next { s with inputs := es }) ∧
  (∀ (s : State) (es : List Event), s.inputs = .pins false true 0x100 :: es →
    ∃ t, step s = .next t ∧ t.err = .noError) ∧
  (∀ (s : State) (es : List Event) (cv : Bool) (w : CmdWord), s.inputs = .pins true cv w :: es →
    ∃ t, step s = .next t ∧ t.err = .noError)

/-- R17 item 10: while ERR is not 0 no step of any agent changes a register of the parser, unless
it clears them all. -/
def Obligations.ErrorHoldsUntilCleared : Prop :=
  ∀ s t : State, s.err ≠ .noError → step s = .next t → sameParser s t ∨ parserClear t

/-! ### Invariants -/

/-- R17 at reset; with the canonical form of the buffer (the list form is log entry 2) and the host's
own invariants, which rest on the report's value at boot (log entry 17, the model's choice). -/
def Obligations.ResetMeetsInvariants : Prop :=
  ParserInv State.reset ∧ Memory.wf State.reset.buf ∧ ReportPlausible State.reset ∧
    WarmingUpReportsSentinel State.reset

/-- R17: from every state that meets its items 1 to 9, every step gives one that does. -/
def Obligations.StepKeepsParserInvariant : Prop :=
  ∀ s t : State, ParserInv s → step s = .next t → ParserInv t

/-- 10_state.md section 8, which the spec marks as derived from its rules: every state reached from
reset, for either value of STRICT and whatever is presented, meets items 1 to 9, each spelled out;
and item 10 holds at every step. -/
def Obligations.ReachableStatesMeetR17 : Prop :=
  ∀ (x : Bool) (es : List Event) (n : Nat) (s : State),
    runSteps n { State.reset with strict := x, inputs := es } = .next s →
      s.fill.toNat ≤ 9 ∧
      (s.vd = true → s.fill = 9#4 ∧ bufRead s 0 = some 0xFF#8 ∧
        ∃ c b8, s.csum = some c ∧ bufCksum s = some c ∧ bufRead s 8 = some b8 ∧
          s.csok = decide (c = b8)) ∧
      (s.vd = false → s.csok = false ∧ s.pv = false) ∧
      (s.pv = true → s.vd = true ∧ s.err = .noError ∧
        (∃ v hi lo, s.ppm = some v ∧ bufRead s 2 = some hi ∧ bufRead s 3 = some lo ∧
          v.toNat = hi.toNat * 256 + lo.toNat) ∧
        (s.strict = true → s.csok = true)) ∧
      (s.err = .marker → s.fill = 9#4 ∧ (∃ b0, bufRead s 0 = some b0 ∧ b0 ≠ 0xFF#8) ∧ s.vd = false) ∧
      (s.err = .checksum → s.strict = true ∧ s.vd = true ∧ s.csok = false) ∧
      (s.err = .short → s.fill.toNat < 9) ∧ (s.err = .overrun → s.fill = 9#4) ∧
      (s.err = .order → s.fill = 9#4 ∧ s.vd = false) ∧
      s.err.code ≠ 7 ∧
      (∀ t : State, s.err ≠ .noError → step s = .next t → sameParser s t ∨ parserClear t)

/-- R15: in a state that meets the invariants, exactly the bytes below FILL hold a value, CSUM holds
one iff VD = 1, and PPM iff PV = 1. -/
def Obligations.ValuesPresentExactlyWhenValid : Prop :=
  ∀ s : State, ParserInv s →
    (∀ a, (bufRead s a).isSome ↔ a < s.fill.toNat) ∧
    (∀ a, (Memory.read s.buf a).isSome ↔ a < s.fill.toNat) ∧
    (s.csum.isSome ↔ s.vd = true) ∧ (s.ppm.isSome ↔ s.pv = true)

/-- R82, R15: from a state that meets the invariants every step answers a next state; and no run
from reset faults or is refused, for either value of STRICT and whatever is presented. -/
def Obligations.StepIsTotal : Prop :=
  (∀ s : State, ParserInv s → ∃ t, step s = .next t) ∧
  (∀ (x : Bool) (es : List Event) (n : Nat),
    ∃ t, runSteps n { State.reset with strict := x, inputs := es } = .next t)

/-- The buffer's canonical form is kept by every step from every state that has it. -/
def Obligations.StepKeepsBufferCanonical : Prop :=
  ∀ s t : State, Memory.wf s.buf → step s = .next t → Memory.wf t.buf

/-- R12, R20: FILL never passes 9, whatever else is wrong with the state. -/
def Obligations.StepKeepsFillInRange : Prop :=
  ∀ s t : State, s.fill.toNat ≤ 9 → step s = .next t → t.fill.toNat ≤ 9

/-- R14, R5: no step changes STRICT or a parameter of the host. -/
def Obligations.ParametersNeverChange : Prop :=
  ∀ s t : State, step s = .next t →
    t.strict = s.strict ∧ t.warmup = s.warmup ∧ t.settleDelay = s.settleDelay ∧
      t.readTimeout = s.readTimeout

/-! ### Whole frames -/

/-- R33, R39: the twelve words of `POLL` on any state leave what the frame's class and STRICT say,
and nothing of the frame before. -/
def Obligations.PollClassifiesFrame : Prop :=
  ∀ (f : Frame) (s : State),
    let frame := { s with
      buf := [(0, f.b0), (1, f.b1), (2, f.b2), (3, f.b3), (4, f.b4), (5, f.b5), (6, f.b6),
        (7, f.b7), (8, f.b8)]
      fill := 9#4, vd := false, csum := none, csok := false, ppm := none, pv := false
      err := .noError }
    let checked := { frame with vd := true, csum := some (frameCksum f) }
    let v := concentration f.b2 f.b3
    runSteps 12 (loadWords (assemble [.poll f]) s) =
      .next (match classify f, s.strict with
        | .invalid, _ => { frame with err := .marker }
        | .checksumGood, _ => { checked with csok := true, ppm := some v, pv := true }
        | .checksumBad, false => { checked with ppm := some v, pv := true }
        | .checksumBad, true => { checked with err := .checksum })

/-- R40, "no cross-cycle retention": after a CLR, no program of command words can tell what the
parser held before it. -/
def Obligations.NoRetentionAcrossClr : Prop :=
  ∀ (s₁ s₂ : State) (ws : List CmdWord), s₁.strict = s₂.strict →
    ∃ t₁ t₂, runSteps (ws.length + 1) (loadWords (0x100 :: ws) s₁) = .next t₁ ∧
      runSteps (ws.length + 1) (loadWords (0x100 :: ws) s₂) = .next t₂ ∧
      sameParser t₁ t₂

/-- R88: where the CLR between two frames is left out, the new frame raises E_OVERRUN, the old
reading is gone, and the VAL and DEC that follow are ignored. -/
def Obligations.ForgottenClrIsLoud : Prop :=
  ∀ (f : Frame) (s : State), s.err = .noError → s.fill = 9#4 →
    runSteps 11 (loadWords (assemble [.frame (frameBytes f), .parse]) s) =
      .next { s with err := .overrun, pv := false, ppm := none }

/-- R38, R39: the words of the operations and of the pseudo-instructions. -/
def Obligations.AssemblerWords : Prop :=
  (∀ d : Byte, assemble [.clr, .push d, .val, .dec] = [0x100, 0x200 + d.setWidth 11, 0x300, 0x400]) ∧
  (∀ f : Frame, assemble [.frame (frameBytes f)] =
    (frameBytes f).map fun b => 0x200 + b.setWidth 11) ∧
  assemble [.parse] = [0x300, 0x400] ∧
  (∀ f : Frame, assemble [.poll f] =
    assemble [.clr] ++ assemble [.frame (frameBytes f)] ++ assemble [.parse] ∧
      (assemble [.poll f]).length = 12)

/-! ### The host -/

/-- R56, R57: a turn of the WARMING_UP host touches neither the parser nor the channel, reports the
sentinel, and makes it READY exactly when the elapsed time exceeds WARMUP. -/
def Obligations.WarmUpTurn : Prop :=
  ∀ (s : State) (es : List Event) (dt : Nat) (c : Bool), s.inputs = .turn dt c :: es →
    s.mode = .warmingUp →
      step s = .next { s with
        inputs := es
        elapsed := s.elapsed + dt
        report := -1
        mode := if s.elapsed + dt > s.warmup then .ready else .warmingUp }

/-- R57 over a whole window: however often the host gets a turn before the elapsed time exceeds
WARMUP, nothing but the clock moves and the report is the sentinel. -/
def Obligations.WarmUpWindowIsSilent : Prop :=
  ∀ (s : State) (es : List Event) (ts : List (Nat × Bool)), s.mode = .warmingUp →
    s.report = -1 → s.elapsed + (ts.map Prod.fst).sum ≤ s.warmup →
      runSteps ts.length
        { s with inputs := ts.map (fun p => .turn p.1 p.2) ++ es } =
          .next { s with inputs := es, elapsed := s.elapsed + (ts.map Prod.fst).sum }

/-- R56: "there is no transition back", whatever agent moves. -/
def Obligations.ReadyHostStaysReady : Prop :=
  ∀ s t : State, s.mode = .ready → step s = .next t → t.mode = .ready

/-- R58 steps 1 to 3 and R63: a turn of the READY host before the frame is complete. Times at which
a wait ends and the place of the CLR are the model's choice (log entries 10 and 11). -/
def Obligations.PollTurnsUpToReading : Prop :=
  ∀ (s : State) (es : List Event) (dt : Nat) (c : Bool), s.inputs = .turn dt c :: es →
    s.mode = .ready →
    let now := s.elapsed + dt
    let u := { s with inputs := es, elapsed := now }
    (s.phase = .transmit → step s = .next { u with
      tx := s.tx ++ [0xFF, 0x01, 0x86, 0x00, 0x00, 0x00, 0x00, 0x00, 0x79]
      phase := .clear now }) ∧
    (∀ since, s.phase = .clear since →
      ∃ t, exec .clr u = .next t ∧ step s = .next { t with phase := .settle since }) ∧
    (∀ since, s.phase = .settle since → now - since < s.settleDelay → step s = .next u) ∧
    (∀ since, s.phase = .settle since → s.settleDelay ≤ now - since →
      step s = .next { u with phase := .read 0 now }) ∧
    (∀ got since b bs, s.phase = .read got since → s.rx = b :: bs → FillInRange s →
      ∃ t, exec (.push b) { u with rx := bs } = .next t ∧
        step s = .next { t with
          phase := if got + 1 < 9 then .read (got + 1) since else .validate }) ∧
    (∀ got since, s.phase = .read got since → s.rx = [] → s.readTimeout = none →
      step s = .next u) ∧
    (∀ got since limit, s.phase = .read got since → s.rx = [] → s.readTimeout = some limit →
      now - since < limit → step s = .next u) ∧
    (∀ got since limit, s.phase = .read got since → s.rx = [] → s.readTimeout = some limit →
      limit ≤ now - since → c = false →
      step s = .next { u with report := -1, phase := .transmit }) ∧
    (∀ got since limit, s.phase = .read got since → s.rx = [] → s.readTimeout = some limit →
      limit ≤ now - since → c = true → ∀ t, exec .val u = .next t →
      step s = .next { t with report := -1, phase := .transmit }) ∧
    (∀ got since limit, s.phase = .read got since → s.rx = [] → s.readTimeout = some limit →
      limit ≤ now - since → c = true → s.err = .noError → s.fill ≠ 9#4 →
      step s = .next { u with
        err := .short, pv := false, ppm := none, report := -1, phase := .transmit })

/-- R58 steps 4 to 6, R61, R76: the turns that validate, decode and check; an error of either
operation abandons the cycle with the sentinel. -/
def Obligations.PollTurnsAfterReading : Prop :=
  ∀ (s : State) (es : List Event) (dt : Nat) (c : Bool), s.inputs = .turn dt c :: es →
    s.mode = .ready → ParserInv s →
    let u := { s with inputs := es, elapsed := s.elapsed + dt }
    (s.phase = .validate → ∃ t, exec .val u = .next t ∧
      (t.err = .noError → step s = .next { t with phase := .decode }) ∧
      (t.err ≠ .noError → step s = .next { t with report := -1, phase := .transmit })) ∧
    (s.phase = .decode → ∃ t, exec .dec u = .next t ∧
      (t.err = .noError → step s = .next { t with phase := .check }) ∧
      (t.err ≠ .noError → step s = .next { t with report := -1, phase := .transmit })) ∧
    (s.phase = .check → step s = .next { u with report := conc s, phase := .transmit })

/-- R59, R60: the accepted values and the reported concentration. -/
def Obligations.ReportedConcentration : Prop :=
  (∀ v : PpmWord, plausible v = true ↔ v.toNat ≤ 15000) ∧
  plausible 15000 = true ∧ plausible 15001 = false ∧ plausible 0 = true ∧
  (∀ (s : State) (v : PpmWord), s.err = .noError → s.pv = true → s.ppm = some v → s.mode = .ready →
    conc s = if v.toNat ≤ 15000 then (v.toNat : Int) else -1) ∧
  (∀ s : State, s.err ≠ .noError ∨ s.pv = false ∨ s.mode = .warmingUp → conc s = -1) ∧
  (∀ s : State, conc s ≠ -1 → 0 ≤ conc s ∧ conc s ≤ 15000)

/-- R57, R59, R60: what is reported is the sentinel or at most the ceiling, and the sentinel while
WARMING_UP; every step of every agent keeps both. -/
def Obligations.StepKeepsReportPlausible : Prop :=
  ∀ s t : State, ReportPlausible s → WarmingUpReportsSentinel s → step s = .next t →
    ReportPlausible t ∧ WarmingUpReportsSentinel t

/-- R63: the reference host, with no READ_TIMEOUT, waits for ever for a byte that does not come, and
the parser does not change. -/
def Obligations.ReferenceHostHangs : Prop :=
  ∀ (s : State) (es : List Event) (ts : List (Nat × Bool)) (got since : Nat), s.mode = .ready →
    s.phase = .read got since → s.rx = [] → s.readTimeout = none →
      runSteps ts.length
        { s with inputs := ts.map (fun p => .turn p.1 p.2) ++ es } =
          .next { s with inputs := es, elapsed := s.elapsed + (ts.map Prod.fst).sum }

/-- R58 to R60, one whole poll cycle: with nine bytes waiting and the settle delay within two turns,
fifteen turns from step 1 leave the host reporting the concentration of a frame that is accepted,
and the sentinel for every other frame. The count of turns and the premise on the settle delay rest
on the model's choices: one move a turn (log entry 8), when the delay ends (10), a turn for the CLR
(11). -/
def Obligations.PollCycleReportsReading : Prop :=
  ∀ (s : State) (f : Frame) (es : List Event) (dt : Nat) (c : Bool), s.mode = .ready →
    s.phase = .transmit → s.rx = frameBytes f → s.settleDelay ≤ 2 * dt →
    ∃ t, runSteps 15
        { s with inputs := List.replicate 15 (.turn dt c) ++ es } = .next t ∧
      t.report =
        if f.b0 = 0xFF#8 ∧ (s.strict = true → frameCksum f = f.b8) ∧
            f.b2.toNat * 256 + f.b3.toNat ≤ 15000 then
          ((f.b2.toNat * 256 + f.b3.toNat : Nat) : Int)
        else -1
end

