-- ==== Sys2Proof/Laws/State.lean ====
section
/-!
SUPPORT. The fields of a state after each named update: one lemma per field, true by definition.
-/

namespace Sys2Proof.Machine

@[simp] theorem storeByte_buf (d : Byte) (s : State) : (storeByte d s).buf = Memory.write s.buf s.fill.toNat d := rfl
@[simp] theorem storeByte_fill (d : Byte) (s : State) : (storeByte d s).fill = s.fill + 1 := rfl
@[simp] theorem storeByte_vd (d : Byte) (s : State) : (storeByte d s).vd = s.vd := rfl
@[simp] theorem storeByte_csum (d : Byte) (s : State) : (storeByte d s).csum = s.csum := rfl
@[simp] theorem storeByte_csok (d : Byte) (s : State) : (storeByte d s).csok = s.csok := rfl
@[simp] theorem storeByte_ppm (d : Byte) (s : State) : (storeByte d s).ppm = s.ppm := rfl
@[simp] theorem storeByte_pv (d : Byte) (s : State) : (storeByte d s).pv = s.pv := rfl
@[simp] theorem storeByte_err (d : Byte) (s : State) : (storeByte d s).err = s.err := rfl
@[simp] theorem storeByte_strict (d : Byte) (s : State) : (storeByte d s).strict = s.strict := rfl
@[simp] theorem storeByte_inputs (d : Byte) (s : State) : (storeByte d s).inputs = s.inputs := rfl
@[simp] theorem storeByte_mode (d : Byte) (s : State) : (storeByte d s).mode = s.mode := rfl
@[simp] theorem storeByte_elapsed (d : Byte) (s : State) : (storeByte d s).elapsed = s.elapsed := rfl
@[simp] theorem storeByte_phase (d : Byte) (s : State) : (storeByte d s).phase = s.phase := rfl
@[simp] theorem storeByte_report (d : Byte) (s : State) : (storeByte d s).report = s.report := rfl
@[simp] theorem storeByte_tx (d : Byte) (s : State) : (storeByte d s).tx = s.tx := rfl
@[simp] theorem storeByte_rx (d : Byte) (s : State) : (storeByte d s).rx = s.rx := rfl
@[simp] theorem storeByte_warmup (d : Byte) (s : State) : (storeByte d s).warmup = s.warmup := rfl
@[simp] theorem storeByte_settleDelay (d : Byte) (s : State) : (storeByte d s).settleDelay = s.settleDelay := rfl
@[simp] theorem storeByte_readTimeout (d : Byte) (s : State) : (storeByte d s).readTimeout = s.readTimeout := rfl

@[simp] theorem raise_buf (e : Err) (s : State) : (raise e s).buf = s.buf := rfl
@[simp] theorem raise_fill (e : Err) (s : State) : (raise e s).fill = s.fill := rfl
@[simp] theorem raise_vd (e : Err) (s : State) : (raise e s).vd = s.vd := rfl
@[simp] theorem raise_csum (e : Err) (s : State) : (raise e s).csum = s.csum := rfl
@[simp] theorem raise_csok (e : Err) (s : State) : (raise e s).csok = s.csok := rfl
@[simp] theorem raise_ppm (e : Err) (s : State) : (raise e s).ppm = none := rfl
@[simp] theorem raise_pv (e : Err) (s : State) : (raise e s).pv = false := rfl
@[simp] theorem raise_err (e : Err) (s : State) : (raise e s).err = e := rfl
@[simp] theorem raise_strict (e : Err) (s : State) : (raise e s).strict = s.strict := rfl
@[simp] theorem raise_inputs (e : Err) (s : State) : (raise e s).inputs = s.inputs := rfl
@[simp] theorem raise_mode (e : Err) (s : State) : (raise e s).mode = s.mode := rfl
@[simp] theorem raise_elapsed (e : Err) (s : State) : (raise e s).elapsed = s.elapsed := rfl
@[simp] theorem raise_phase (e : Err) (s : State) : (raise e s).phase = s.phase := rfl
@[simp] theorem raise_report (e : Err) (s : State) : (raise e s).report = s.report := rfl
@[simp] theorem raise_tx (e : Err) (s : State) : (raise e s).tx = s.tx := rfl
@[simp] theorem raise_rx (e : Err) (s : State) : (raise e s).rx = s.rx := rfl
@[simp] theorem raise_warmup (e : Err) (s : State) : (raise e s).warmup = s.warmup := rfl
@[simp] theorem raise_settleDelay (e : Err) (s : State) : (raise e s).settleDelay = s.settleDelay := rfl
@[simp] theorem raise_readTimeout (e : Err) (s : State) : (raise e s).readTimeout = s.readTimeout := rfl

@[simp] theorem resetParser_buf (s : State) : (resetParser s).buf = [] := rfl
@[simp] theorem resetParser_fill (s : State) : (resetParser s).fill = 0 := rfl
@[simp] theorem resetParser_vd (s : State) : (resetParser s).vd = false := rfl
@[simp] theorem resetParser_csum (s : State) : (resetParser s).csum = none := rfl
@[simp] theorem resetParser_csok (s : State) : (resetParser s).csok = false := rfl
@[simp] theorem resetParser_ppm (s : State) : (resetParser s).ppm = none := rfl
@[simp] theorem resetParser_pv (s : State) : (resetParser s).pv = false := rfl
@[simp] theorem resetParser_err (s : State) : (resetParser s).err = .noError := rfl
@[simp] theorem resetParser_strict (s : State) : (resetParser s).strict = s.strict := rfl
@[simp] theorem resetParser_inputs (s : State) : (resetParser s).inputs = s.inputs := rfl
@[simp] theorem resetParser_mode (s : State) : (resetParser s).mode = s.mode := rfl
@[simp] theorem resetParser_elapsed (s : State) : (resetParser s).elapsed = s.elapsed := rfl
@[simp] theorem resetParser_phase (s : State) : (resetParser s).phase = s.phase := rfl
@[simp] theorem resetParser_report (s : State) : (resetParser s).report = s.report := rfl
@[simp] theorem resetParser_tx (s : State) : (resetParser s).tx = s.tx := rfl
@[simp] theorem resetParser_rx (s : State) : (resetParser s).rx = s.rx := rfl
@[simp] theorem resetParser_warmup (s : State) : (resetParser s).warmup = s.warmup := rfl
@[simp] theorem resetParser_settleDelay (s : State) : (resetParser s).settleDelay = s.settleDelay := rfl
@[simp] theorem resetParser_readTimeout (s : State) : (resetParser s).readTimeout = s.readTimeout := rfl

@[simp] theorem recordChecksum_buf (c : Byte) (ok : Bool) (s : State) : (recordChecksum c ok s).buf = s.buf := rfl
@[simp] theorem recordChecksum_fill (c : Byte) (ok : Bool) (s : State) : (recordChecksum c ok s).fill = s.fill := rfl
@[simp] theorem recordChecksum_vd (c : Byte) (ok : Bool) (s : State) : (recordChecksum c ok s).vd = true := rfl
@[simp] theorem recordChecksum_csum (c : Byte) (ok : Bool) (s : State) : (recordChecksum c ok s).csum = some c := rfl
@[simp] theorem recordChecksum_csok (c : Byte) (ok : Bool) (s : State) : (recordChecksum c ok s).csok = ok := rfl
@[simp] theorem recordChecksum_ppm (c : Byte) (ok : Bool) (s : State) : (recordChecksum c ok s).ppm = s.ppm := rfl
@[simp] theorem recordChecksum_pv (c : Byte) (ok : Bool) (s : State) : (recordChecksum c ok s).pv = s.pv := rfl
@[simp] theorem recordChecksum_err (c : Byte) (ok : Bool) (s : State) : (recordChecksum c ok s).err = s.err := rfl
@[simp] theorem recordChecksum_strict (c : Byte) (ok : Bool) (s : State) : (recordChecksum c ok s).strict = s.strict := rfl
@[simp] theorem recordChecksum_inputs (c : Byte) (ok : Bool) (s : State) : (recordChecksum c ok s).inputs = s.inputs := rfl
@[simp] theorem recordChecksum_mode (c : Byte) (ok : Bool) (s : State) : (recordChecksum c ok s).mode = s.mode := rfl
@[simp] theorem recordChecksum_elapsed (c : Byte) (ok : Bool) (s : State) : (recordChecksum c ok s).elapsed = s.elapsed := rfl
@[simp] theorem recordChecksum_phase (c : Byte) (ok : Bool) (s : State) : (recordChecksum c ok s).phase = s.phase := rfl
@[simp] theorem recordChecksum_report (c : Byte) (ok : Bool) (s : State) : (recordChecksum c ok s).report = s.report := rfl
@[simp] theorem recordChecksum_tx (c : Byte) (ok : Bool) (s : State) : (recordChecksum c ok s).tx = s.tx := rfl
@[simp] theorem recordChecksum_rx (c : Byte) (ok : Bool) (s : State) : (recordChecksum c ok s).rx = s.rx := rfl
@[simp] theorem recordChecksum_warmup (c : Byte) (ok : Bool) (s : State) : (recordChecksum c ok s).warmup = s.warmup := rfl
@[simp] theorem recordChecksum_settleDelay (c : Byte) (ok : Bool) (s : State) : (recordChecksum c ok s).settleDelay = s.settleDelay := rfl
@[simp] theorem recordChecksum_readTimeout (c : Byte) (ok : Bool) (s : State) : (recordChecksum c ok s).readTimeout = s.readTimeout := rfl

@[simp] theorem recordPpm_buf (v : PpmWord) (s : State) : (recordPpm v s).buf = s.buf := rfl
@[simp] theorem recordPpm_fill (v : PpmWord) (s : State) : (recordPpm v s).fill = s.fill := rfl
@[simp] theorem recordPpm_vd (v : PpmWord) (s : State) : (recordPpm v s).vd = s.vd := rfl
@[simp] theorem recordPpm_csum (v : PpmWord) (s : State) : (recordPpm v s).csum = s.csum := rfl
@[simp] theorem recordPpm_csok (v : PpmWord) (s : State) : (recordPpm v s).csok = s.csok := rfl
@[simp] theorem recordPpm_ppm (v : PpmWord) (s : State) : (recordPpm v s).ppm = some v := rfl
@[simp] theorem recordPpm_pv (v : PpmWord) (s : State) : (recordPpm v s).pv = true := rfl
@[simp] theorem recordPpm_err (v : PpmWord) (s : State) : (recordPpm v s).err = s.err := rfl
@[simp] theorem recordPpm_strict (v : PpmWord) (s : State) : (recordPpm v s).strict = s.strict := rfl
@[simp] theorem recordPpm_inputs (v : PpmWord) (s : State) : (recordPpm v s).inputs = s.inputs := rfl
@[simp] theorem recordPpm_mode (v : PpmWord) (s : State) : (recordPpm v s).mode = s.mode := rfl
@[simp] theorem recordPpm_elapsed (v : PpmWord) (s : State) : (recordPpm v s).elapsed = s.elapsed := rfl
@[simp] theorem recordPpm_phase (v : PpmWord) (s : State) : (recordPpm v s).phase = s.phase := rfl
@[simp] theorem recordPpm_report (v : PpmWord) (s : State) : (recordPpm v s).report = s.report := rfl
@[simp] theorem recordPpm_tx (v : PpmWord) (s : State) : (recordPpm v s).tx = s.tx := rfl
@[simp] theorem recordPpm_rx (v : PpmWord) (s : State) : (recordPpm v s).rx = s.rx := rfl
@[simp] theorem recordPpm_warmup (v : PpmWord) (s : State) : (recordPpm v s).warmup = s.warmup := rfl
@[simp] theorem recordPpm_settleDelay (v : PpmWord) (s : State) : (recordPpm v s).settleDelay = s.settleDelay := rfl
@[simp] theorem recordPpm_readTimeout (v : PpmWord) (s : State) : (recordPpm v s).readTimeout = s.readTimeout := rfl

@[simp] theorem sendBytes_buf (bs : List Byte) (s : State) : (sendBytes bs s).buf = s.buf := rfl
@[simp] theorem sendBytes_fill (bs : List Byte) (s : State) : (sendBytes bs s).fill = s.fill := rfl
@[simp] theorem sendBytes_vd (bs : List Byte) (s : State) : (sendBytes bs s).vd = s.vd := rfl
@[simp] theorem sendBytes_csum (bs : List Byte) (s : State) : (sendBytes bs s).csum = s.csum := rfl
@[simp] theorem sendBytes_csok (bs : List Byte) (s : State) : (sendBytes bs s).csok = s.csok := rfl
@[simp] theorem sendBytes_ppm (bs : List Byte) (s : State) : (sendBytes bs s).ppm = s.ppm := rfl
@[simp] theorem sendBytes_pv (bs : List Byte) (s : State) : (sendBytes bs s).pv = s.pv := rfl
@[simp] theorem sendBytes_err (bs : List Byte) (s : State) : (sendBytes bs s).err = s.err := rfl
@[simp] theorem sendBytes_strict (bs : List Byte) (s : State) : (sendBytes bs s).strict = s.strict := rfl
@[simp] theorem sendBytes_inputs (bs : List Byte) (s : State) : (sendBytes bs s).inputs = s.inputs := rfl
@[simp] theorem sendBytes_mode (bs : List Byte) (s : State) : (sendBytes bs s).mode = s.mode := rfl
@[simp] theorem sendBytes_elapsed (bs : List Byte) (s : State) : (sendBytes bs s).elapsed = s.elapsed := rfl
@[simp] theorem sendBytes_phase (bs : List Byte) (s : State) : (sendBytes bs s).phase = s.phase := rfl
@[simp] theorem sendBytes_report (bs : List Byte) (s : State) : (sendBytes bs s).report = s.report := rfl
@[simp] theorem sendBytes_tx (bs : List Byte) (s : State) : (sendBytes bs s).tx = s.tx ++ bs := rfl
@[simp] theorem sendBytes_rx (bs : List Byte) (s : State) : (sendBytes bs s).rx = s.rx := rfl
@[simp] theorem sendBytes_warmup (bs : List Byte) (s : State) : (sendBytes bs s).warmup = s.warmup := rfl
@[simp] theorem sendBytes_settleDelay (bs : List Byte) (s : State) : (sendBytes bs s).settleDelay = s.settleDelay := rfl
@[simp] theorem sendBytes_readTimeout (bs : List Byte) (s : State) : (sendBytes bs s).readTimeout = s.readTimeout := rfl

@[simp] theorem abandon_buf (s : State) : (abandon s).buf = s.buf := rfl
@[simp] theorem abandon_fill (s : State) : (abandon s).fill = s.fill := rfl
@[simp] theorem abandon_vd (s : State) : (abandon s).vd = s.vd := rfl
@[simp] theorem abandon_csum (s : State) : (abandon s).csum = s.csum := rfl
@[simp] theorem abandon_csok (s : State) : (abandon s).csok = s.csok := rfl
@[simp] theorem abandon_ppm (s : State) : (abandon s).ppm = s.ppm := rfl
@[simp] theorem abandon_pv (s : State) : (abandon s).pv = s.pv := rfl
@[simp] theorem abandon_err (s : State) : (abandon s).err = s.err := rfl
@[simp] theorem abandon_strict (s : State) : (abandon s).strict = s.strict := rfl
@[simp] theorem abandon_inputs (s : State) : (abandon s).inputs = s.inputs := rfl
@[simp] theorem abandon_mode (s : State) : (abandon s).mode = s.mode := rfl
@[simp] theorem abandon_elapsed (s : State) : (abandon s).elapsed = s.elapsed := rfl
@[simp] theorem abandon_phase (s : State) : (abandon s).phase = .transmit := rfl
@[simp] theorem abandon_report (s : State) : (abandon s).report = Config.sentinel := rfl
@[simp] theorem abandon_tx (s : State) : (abandon s).tx = s.tx := rfl
@[simp] theorem abandon_rx (s : State) : (abandon s).rx = s.rx := rfl
@[simp] theorem abandon_warmup (s : State) : (abandon s).warmup = s.warmup := rfl
@[simp] theorem abandon_settleDelay (s : State) : (abandon s).settleDelay = s.settleDelay := rfl
@[simp] theorem abandon_readTimeout (s : State) : (abandon s).readTimeout = s.readTimeout := rfl

@[simp] theorem goto_buf (p : Phase) (s : State) : (goto p s).buf = s.buf := rfl
@[simp] theorem goto_fill (p : Phase) (s : State) : (goto p s).fill = s.fill := rfl
@[simp] theorem goto_vd (p : Phase) (s : State) : (goto p s).vd = s.vd := rfl
@[simp] theorem goto_csum (p : Phase) (s : State) : (goto p s).csum = s.csum := rfl
@[simp] theorem goto_csok (p : Phase) (s : State) : (goto p s).csok = s.csok := rfl
@[simp] theorem goto_ppm (p : Phase) (s : State) : (goto p s).ppm = s.ppm := rfl
@[simp] theorem goto_pv (p : Phase) (s : State) : (goto p s).pv = s.pv := rfl
@[simp] theorem goto_err (p : Phase) (s : State) : (goto p s).err = s.err := rfl
@[simp] theorem goto_strict (p : Phase) (s : State) : (goto p s).strict = s.strict := rfl
@[simp] theorem goto_inputs (p : Phase) (s : State) : (goto p s).inputs = s.inputs := rfl
@[simp] theorem goto_mode (p : Phase) (s : State) : (goto p s).mode = s.mode := rfl
@[simp] theorem goto_elapsed (p : Phase) (s : State) : (goto p s).elapsed = s.elapsed := rfl
@[simp] theorem goto_phase (p : Phase) (s : State) : (goto p s).phase = p := rfl
@[simp] theorem goto_report (p : Phase) (s : State) : (goto p s).report = s.report := rfl
@[simp] theorem goto_tx (p : Phase) (s : State) : (goto p s).tx = s.tx := rfl
@[simp] theorem goto_rx (p : Phase) (s : State) : (goto p s).rx = s.rx := rfl
@[simp] theorem goto_warmup (p : Phase) (s : State) : (goto p s).warmup = s.warmup := rfl
@[simp] theorem goto_settleDelay (p : Phase) (s : State) : (goto p s).settleDelay = s.settleDelay := rfl
@[simp] theorem goto_readTimeout (p : Phase) (s : State) : (goto p s).readTimeout = s.readTimeout := rfl

@[simp] theorem receiveByte_buf (b : Byte) (s : State) : (receiveByte b s).buf = s.buf := rfl
@[simp] theorem receiveByte_fill (b : Byte) (s : State) : (receiveByte b s).fill = s.fill := rfl
@[simp] theorem receiveByte_vd (b : Byte) (s : State) : (receiveByte b s).vd = s.vd := rfl
@[simp] theorem receiveByte_csum (b : Byte) (s : State) : (receiveByte b s).csum = s.csum := rfl
@[simp] theorem receiveByte_csok (b : Byte) (s : State) : (receiveByte b s).csok = s.csok := rfl
@[simp] theorem receiveByte_ppm (b : Byte) (s : State) : (receiveByte b s).ppm = s.ppm := rfl
@[simp] theorem receiveByte_pv (b : Byte) (s : State) : (receiveByte b s).pv = s.pv := rfl
@[simp] theorem receiveByte_err (b : Byte) (s : State) : (receiveByte b s).err = s.err := rfl
@[simp] theorem receiveByte_strict (b : Byte) (s : State) : (receiveByte b s).strict = s.strict := rfl
@[simp] theorem receiveByte_inputs (b : Byte) (s : State) : (receiveByte b s).inputs = s.inputs := rfl
@[simp] theorem receiveByte_mode (b : Byte) (s : State) : (receiveByte b s).mode = s.mode := rfl
@[simp] theorem receiveByte_elapsed (b : Byte) (s : State) : (receiveByte b s).elapsed = s.elapsed := rfl
@[simp] theorem receiveByte_phase (b : Byte) (s : State) : (receiveByte b s).phase = s.phase := rfl
@[simp] theorem receiveByte_report (b : Byte) (s : State) : (receiveByte b s).report = s.report := rfl
@[simp] theorem receiveByte_tx (b : Byte) (s : State) : (receiveByte b s).tx = s.tx := rfl
@[simp] theorem receiveByte_rx (b : Byte) (s : State) : (receiveByte b s).rx = s.rx ++ [b] := rfl
@[simp] theorem receiveByte_warmup (b : Byte) (s : State) : (receiveByte b s).warmup = s.warmup := rfl
@[simp] theorem receiveByte_settleDelay (b : Byte) (s : State) : (receiveByte b s).settleDelay = s.settleDelay := rfl
@[simp] theorem receiveByte_readTimeout (b : Byte) (s : State) : (receiveByte b s).readTimeout = s.readTimeout := rfl

@[simp] theorem present_buf (e : Event) (s : State) : (present e s).buf = s.buf := rfl
@[simp] theorem present_fill (e : Event) (s : State) : (present e s).fill = s.fill := rfl
@[simp] theorem present_vd (e : Event) (s : State) : (present e s).vd = s.vd := rfl
@[simp] theorem present_csum (e : Event) (s : State) : (present e s).csum = s.csum := rfl
@[simp] theorem present_csok (e : Event) (s : State) : (present e s).csok = s.csok := rfl
@[simp] theorem present_ppm (e : Event) (s : State) : (present e s).ppm = s.ppm := rfl
@[simp] theorem present_pv (e : Event) (s : State) : (present e s).pv = s.pv := rfl
@[simp] theorem present_err (e : Event) (s : State) : (present e s).err = s.err := rfl
@[simp] theorem present_strict (e : Event) (s : State) : (present e s).strict = s.strict := rfl
@[simp] theorem present_inputs (e : Event) (s : State) : (present e s).inputs = e :: s.inputs := rfl
@[simp] theorem present_mode (e : Event) (s : State) : (present e s).mode = s.mode := rfl
@[simp] theorem present_elapsed (e : Event) (s : State) : (present e s).elapsed = s.elapsed := rfl
@[simp] theorem present_phase (e : Event) (s : State) : (present e s).phase = s.phase := rfl
@[simp] theorem present_report (e : Event) (s : State) : (present e s).report = s.report := rfl
@[simp] theorem present_tx (e : Event) (s : State) : (present e s).tx = s.tx := rfl
@[simp] theorem present_rx (e : Event) (s : State) : (present e s).rx = s.rx := rfl
@[simp] theorem present_warmup (e : Event) (s : State) : (present e s).warmup = s.warmup := rfl
@[simp] theorem present_settleDelay (e : Event) (s : State) : (present e s).settleDelay = s.settleDelay := rfl
@[simp] theorem present_readTimeout (e : Event) (s : State) : (present e s).readTimeout = s.readTimeout := rfl

end Sys2Proof.Machine
end

