-- ==== Sys2Proof/Laws/Memory.lean ====
section
/-!
SUPPORT. The laws of the buffer: a read after a write, the canonical form, and a write past the
last listed offset.
-/

namespace Sys2Proof.Machine

theorem Memory.read_write_same (m : Memory) (a : Nat) (v : Byte) :
    Memory.read (Memory.write m a v) a = some v := by
  induction m with
  | nil => simp [Memory.write, Memory.read]
  | cons c m ih =>
    simp only [Memory.write]
    split
    · simp [Memory.read]
    · split
      · simp [Memory.read]
      · rename_i _ hne
        simp [Memory.read, Ne.symm hne, ih]

theorem Memory.read_write_other (m : Memory) (a b : Nat) (v : Byte) (h : b ≠ a) :
    Memory.read (Memory.write m a v) b = Memory.read m b := by
  induction m with
  | nil => simp [Memory.write, Memory.read, Ne.symm h]
  | cons c m ih =>
    simp only [Memory.write]
    split
    · simp [Memory.read, Ne.symm h]
    · split
      · rename_i _ hac
        simp [Memory.read, ← hac, Ne.symm h]
      · simp [Memory.read, ih]

/-- A listed offset holds a byte. -/
theorem Memory.read_of_mem : ∀ (m : Memory) (a : Nat), a ∈ m.map Prod.fst →
    ∃ b, Memory.read m a = some b := by
  intro m a h
  induction m with
  | nil => cases h
  | cons c m ih =>
    rcases List.mem_cons.mp h with rfl | h
    · exact ⟨c.2, if_pos rfl⟩
    · obtain ⟨b, hb⟩ := ih h
      unfold Memory.read
      split
      · exact ⟨c.2, rfl⟩
      · exact ⟨b, hb⟩

theorem Memory.mem_write {m : Memory} {a : Nat} {v : Byte} {c : Host.Cell}
    (h : c ∈ Memory.write m a v) : c = (a, v) ∨ c ∈ m := by
  induction m with
  | nil => simpa [Memory.write] using h
  | cons d m ih =>
    simp only [Memory.write] at h
    split at h
    · simpa using h
    · split at h
      · simp at h
        tauto
      · simp at h
        rcases h with h | h
        · exact .inr (by simp [h])
        · exact (ih h).imp id fun h => List.mem_cons_of_mem _ h

/-- A write at an offset of the buffer keeps the canonical form. -/
theorem Memory.write_wf {m : Memory} {a : Nat} {v : Byte} (ha : a < Config.frameLen)
    (h : Memory.wf m) : Memory.wf (Memory.write m a v) := by
  refine ⟨?_, fun c hc => ?_⟩
  · have hp := h.1
    clear h
    induction m with
    | nil => simp [Memory.write]
    | cons d m ih =>
      have hd := List.pairwise_cons.mp hp
      simp only [Memory.write]
      split
      · rename_i hlt
        refine List.pairwise_cons.mpr ⟨fun c hc => ?_, hp⟩
        rcases List.mem_cons.mp hc with rfl | hc
        · exact hlt
        · exact Nat.lt_trans hlt (hd.1 c hc)
      · split
        · rename_i _ heq
          exact List.pairwise_cons.mpr ⟨fun c hc => heq ▸ hd.1 c hc, hd.2⟩
        · rename_i hge hne
          refine List.pairwise_cons.mpr ⟨fun c hc => ?_, ih hd.2⟩
          rcases Memory.mem_write hc with rfl | hc
          · show d.1 < a
            omega
          · exact hd.1 c hc
  · rcases Memory.mem_write hc with rfl | hc
    · exact ha
    · exact h.2 c hc

theorem Memory.wf_nil : Memory.wf [] := by decide

/-- A write past every listed offset goes to the end. -/
theorem Memory.write_past {m : Memory} {a : Nat} {v : Byte} (h : ∀ c ∈ m, c.1 < a) :
    Memory.write m a v = m ++ [(a, v)] := by
  induction m with
  | nil => rfl
  | cons c m ih =>
    have hc := h c (by simp)
    have : ¬ a < c.1 := by omega
    have : ¬ a = c.1 := by omega
    simp [Memory.write, *, ih fun d hd => h d (by simp [hd])]

/-- An offset holds a value exactly when it is listed. -/
theorem Memory.read_isSome_iff (m : Memory) (a : Nat) :
    (Memory.read m a).isSome ↔ a ∈ m.map Prod.fst := by
  induction m with
  | nil => simp [Memory.read]
  | cons c m ih =>
    simp only [Memory.read, List.map_cons, List.mem_cons]
    split
    · simp_all
    · rename_i h
      simp [ih, Ne.symm h]

end Sys2Proof.Machine
end

