-- ==== Sys2Proof/Laws/Ops.lean ====
section
/-!
SUPPORT. One lemma per shared operation, saying everything it can do: chaining, buffer reads, and
what each meaning answers.
-/

namespace Sys2Proof.Machine

@[simp] theorem andThen_next (s : State) (k : State → Result) : andThen (.next s) k = k s := rfl

@[simp] theorem andThen_fault (r : Fault) (k : State → Result) :
    andThen (.fault r) k = .fault r := rfl

@[simp] theorem andThen_refused (r : Refusal) (k : State → Result) :
    andThen (.refused r) k = .refused r := rfl

/-- A chain answers next only through a next of its first part. -/
theorem andThen_eq_next {o : Result} {k : State → Result} {t : State}
    (h : andThen o k = .next t) : ∃ s, o = .next s ∧ k s = .next t := by
  cases o with
  | next s => exact ⟨s, rfl, h⟩
  | fault r => cases h
  | refused r => cases h

/-- A buffer read sees FILL and the buffer only. -/
theorem bufRead_congr {s t : State} (hf : t.fill = s.fill) (hb : t.buf = s.buf) (a : Nat) :
    bufRead t a = bufRead s a := by
  simp [bufRead, hf, hb]

theorem bufCksum_congr {s t : State} (h : ∀ a, bufRead t a = bufRead s a) :
    bufCksum t = bufCksum s := by
  simp only [bufCksum, h]

theorem bufConcentration_congr {s t : State} (h : ∀ a, bufRead t a = bufRead s a) :
    bufConcentration t = bufConcentration s := by
  simp only [bufConcentration, h]

theorem full_iff (s : State) : full s = true ↔ s.fill = 9#4 := by
  simp [full]

theorem fill_eq_nine_iff (s : State) : s.fill = 9#4 ↔ s.fill.toNat = 9 := by
  rw [← BitVec.toNat_inj]
  rfl

theorem full_eq_false {s : State} (h : s.fill.toNat ≠ 9) : full s = false := by
  cases hf : full s with
  | false => rfl
  | true => exact absurd ((fill_eq_nine_iff s).mp ((full_iff s).mp hf)) h

/-- FILL goes up by exactly one with each byte stored (R12). -/
theorem storeByte_fill_toNat {s : State} (d : Byte) (h : s.fill.toNat < 9) :
    (storeByte d s).fill.toNat = s.fill.toNat + 1 := by
  simp [BitVec.toNat_add]
  omega

theorem bufRead_storeByte_same {s : State} (d : Byte) (h : s.fill.toNat < 9) :
    bufRead (storeByte d s) s.fill.toNat = some d := by
  simp only [bufRead, storeByte_fill_toNat d h, storeByte_buf, Memory.read_write_same]
  simp

theorem bufRead_storeByte_other {s : State} (d : Byte) (h : s.fill.toNat < 9) {a : Nat}
    (ha : a ≠ s.fill.toNat) : bufRead (storeByte d s) a = bufRead s a := by
  simp only [bufRead, storeByte_fill_toNat d h, storeByte_buf, Memory.read_write_other _ _ _ _ ha]
  split <;> split <;> first | rfl | omega

theorem bufRead_raise (e : Err) (s : State) (a : Nat) : bufRead (raise e s) a = bufRead s a := rfl

theorem bufRead_recordChecksum (c : Byte) (ok : Bool) (s : State) (a : Nat) :
    bufRead (recordChecksum c ok s) a = bufRead s a := rfl

theorem bufRead_recordPpm (v : PpmWord) (s : State) (a : Nat) :
    bufRead (recordPpm v s) a = bufRead s a := rfl

/-- A cleared parser holds no byte (R16). -/
theorem bufRead_resetParser (s : State) (a : Nat) : bufRead (resetParser s) a = none := by
  simp [bufRead]

/-- What CLR answers. -/
theorem execClr_eq (s : State) : execClr s = .next (resetParser s) := rfl

/-- Everything PUSH can answer with a next state. -/
theorem execPush_cases {d : Byte} {s t : State} (h : execPush d s = .next t) :
    (s.err ≠ .noError ∧ t = s) ∨
    (s.err = .noError ∧ s.fill = 9#4 ∧ t = raise .overrun s) ∨
    (s.err = .noError ∧ s.fill.toNat < 9 ∧ t = storeByte d s) := by
  unfold execPush at h
  split at h
  · injection h with h
    exact .inl ⟨‹_›, h.symm⟩
  · rename_i he
    have he : s.err = .noError := by simpa using he
    split at h
    · injection h with h
      exact .inr (.inl ⟨he, (full_iff s).mp ‹_›, h.symm⟩)
    · split at h
      · injection h with h
        exact .inr (.inr ⟨he, ‹_›, h.symm⟩)
      · cases h

theorem execPush_of_err {d : Byte} {s : State} (h : s.err ≠ .noError) :
    execPush d s = .next s := by
  simp [execPush, h]

theorem execPush_of_full {d : Byte} {s : State} (h : s.err = .noError) (hf : s.fill = 9#4) :
    execPush d s = .next (raise .overrun s) := by
  simp [execPush, h, full, hf]

theorem execPush_of_room {d : Byte} {s : State} (h : s.err = .noError) (hf : s.fill.toNat < 9) :
    execPush d s = .next (storeByte d s) := by
  simp [execPush, h, full_eq_false (by omega : s.fill.toNat ≠ 9), hf]

theorem pushAll_of_err {s : State} (h : s.err ≠ .noError) (bs : List Byte) :
    pushAll bs s = .next s := by
  induction bs with
  | nil => rfl
  | cons b bs ih => simp [pushAll, execPush_of_err h, ih]

/-- Everything VAL can answer with a next state. -/
theorem execVal_cases {s t : State} (h : execVal s = .next t) :
    (s.err ≠ .noError ∧ t = s) ∨
    (s.err = .noError ∧ s.fill ≠ 9#4 ∧ t = raise .short s) ∨
    (s.err = .noError ∧ s.fill = 9#4 ∧
      (∃ b0, bufRead s 0 = some b0 ∧ b0 ≠ Config.marker) ∧ t = raise .marker s) ∨
    (s.err = .noError ∧ s.fill = 9#4 ∧ bufRead s 0 = some Config.marker ∧
      ∃ c b8, bufCksum s = some c ∧ bufRead s 8 = some b8 ∧
        t = recordChecksum c (checksumOk c b8) s) := by
  unfold execVal at h
  split at h
  · injection h with h
    exact .inl ⟨‹_›, h.symm⟩
  · rename_i he
    have he : s.err = .noError := by simpa using he
    split at h
    · rename_i hf
      injection h with h
      exact .inr (.inl ⟨he, fun hf' => hf ((full_iff s).mpr hf'), h.symm⟩)
    · rename_i hf
      have hf : s.fill = 9#4 := (full_iff s).mp (by simpa using hf)
      split at h
      · cases h
      · rename_i b0 hb0
        split at h
        · injection h with h
          exact .inr (.inr (.inl ⟨he, hf, ⟨b0, hb0, ‹_›⟩, h.symm⟩))
        · rename_i hm
          have hm : b0 = Config.marker := by simpa using hm
          subst hm
          split at h
          · injection h with h
            exact .inr (.inr (.inr ⟨he, hf, hb0, _, _, ‹_›, ‹_›, h.symm⟩))
          · cases h
          · cases h

/-- Everything DEC can answer with a next state. -/
theorem execDec_cases {s t : State} (h : execDec s = .next t) :
    (s.err ≠ .noError ∧ t = s) ∨
    (s.err = .noError ∧ s.fill ≠ 9#4 ∧ t = raise .short s) ∨
    (s.err = .noError ∧ s.fill = 9#4 ∧ s.vd = false ∧ t = raise .order s) ∨
    (s.err = .noError ∧ s.fill = 9#4 ∧ s.vd = true ∧ s.csok = false ∧ s.strict = true ∧
      t = raise .checksum s) ∨
    (s.err = .noError ∧ s.fill = 9#4 ∧ s.vd = true ∧ (s.strict = true → s.csok = true) ∧
      ∃ v, bufConcentration s = some v ∧ t = recordPpm v s) := by
  unfold execDec at h
  split at h
  · injection h with h
    exact .inl ⟨‹_›, h.symm⟩
  · rename_i he
    have he : s.err = .noError := by simpa using he
    split at h
    · rename_i hf
      injection h with h
      exact .inr (.inl ⟨he, fun hf' => hf ((full_iff s).mpr hf'), h.symm⟩)
    · rename_i hf
      have hf : s.fill = 9#4 := (full_iff s).mp (by simpa using hf)
      split at h
      · rename_i hv
        injection h with h
        exact .inr (.inr (.inl ⟨he, hf, by simpa using hv, h.symm⟩))
      · rename_i hv
        have hv : s.vd = true := by simpa using hv
        split at h
        · rename_i hc
          injection h with h
          exact .inr (.inr (.inr (.inl ⟨he, hf, hv, by simpa using hc.1, hc.2, h.symm⟩)))
        · rename_i hc
          split at h
          · rename_i v hb
            injection h with h
            refine .inr (.inr (.inr (.inr ⟨he, hf, hv, fun hs => ?_, v, hb, h.symm⟩)))
            simpa [hs] using hc
          · cases h

/-- What the Command Transmitter answers. -/
theorem execCommandFrame_eq (s : State) :
    execCommandFrame s = .next (sendBytes [0xFF, 0x01, 0x86, 0, 0, 0, 0, 0, 0x79] s) := rfl

/-- Where the buffer lists the offsets below FILL, each of them reads as a byte (R15, R24). -/
theorem bufRead_of_listed {s : State} (h : s.buf.map Prod.fst = List.range s.fill.toNat) {a : Nat}
    (ha : a < s.fill.toNat) : ∃ b, bufRead s a = some b := by
  obtain ⟨b, hb⟩ := Memory.read_of_mem s.buf a (h ▸ List.mem_range.mpr ha)
  exact ⟨b, by rw [bufRead, if_pos ha, hb]⟩

/-- A chain of PUSHes keeps what each PUSH keeps. -/
theorem pushAll_keeps {P : State → Prop}
    (hpush : ∀ d s t, P s → execPush d s = .next t → P t) (bs : List Byte) :
    ∀ {s t : State}, P s → pushAll bs s = .next t → P t := by
  induction bs with
  | nil =>
    intro s t hs h
    injection h with h
    exact h ▸ hs
  | cons b bs ih =>
    intro s t hs h
    obtain ⟨u, hu, h⟩ := andThen_eq_next h
    exact ih (hpush b s u hs hu) h

/-- A reserved word is ignored or raises E_ILLEGAL. -/
theorem reservedWord_cases (s : State) :
    (s.err ≠ .noError ∧ reservedWord s = s) ∨
    (s.err = .noError ∧ reservedWord s = raise .illegal s) := by
  unfold reservedWord
  split
  · exact .inl ⟨‹_›, rfl⟩
  · exact .inr ⟨by simp_all, rfl⟩

end Sys2Proof.Machine
end

