-- ==== Sys2Proof/Laws/Step.lean ====
section
/-!
SUPPORT. What one step can do, said once: a property of the parser's registers and STRICT that the
four operations, a reserved word and reset keep, every step keeps (R6, R10, R74).
-/

namespace Sys2Proof.Machine

theorem sameParser_refl (s : State) : sameParser s s := ⟨rfl, rfl, rfl, rfl, rfl, rfl, rfl, rfl⟩

theorem step_nil {s : State} (h : s.inputs = []) : step s = .next s := by
  simp [step, advance, h]

theorem step_cons {s : State} {e : Event} {es : List Event} (h : s.inputs = e :: es) :
    step s = runEvent e { s with inputs := es } := by
  simp [step, advance, h]

section Keeps

variable {P : State → Prop}

/-- What the parts of a step keep, gathered. -/
structure PartsKeep (P : State → Prop) : Prop where
  /-- P looks at the parser's registers and STRICT only. -/
  outside : ∀ s t, sameParser s t → t.strict = s.strict → P s → P t
  reset : ∀ s, P s → P (resetParser s)
  push : ∀ d s t, P s → execPush d s = .next t → P t
  val : ∀ s t, P s → execVal s = .next t → P t
  dec : ∀ s t, P s → execDec s = .next t → P t
  reserved : ∀ s, P s → P (reservedWord s)

/-- Every instruction keeps what the parts keep. -/
theorem exec_keeps (k : PartsKeep P) (i : Instr) {s t : State} (hs : P s)
    (h : exec i s = .next t) : P t := by
  cases i with
  | clr =>
    injection h with h
    exact h ▸ k.reset s hs
  | push d => exact k.push d s t hs h
  | val => exact k.val s t hs h
  | dec => exact k.dec s t hs h
  | responseFrame f => exact pushAll_keeps k.push _ hs h
  | commandFrame =>
    injection h with h
    exact h ▸ k.outside s _ ⟨rfl, rfl, rfl, rfl, rfl, rfl, rfl, rfl⟩ rfl hs

theorem presentPins_keeps (k : PartsKeep P) {rst cv : Bool} {w : CmdWord} {s t : State}
    (hs : P s) (h : presentPins rst cv w s = .next t) : P t := by
  unfold presentPins at h
  split at h
  · injection h with h
    exact h ▸ k.reset s hs
  · split at h
    · unfold presentWord at h
      split at h
      · exact exec_keeps k _ hs h
      · injection h with h
        exact h ▸ k.reserved s hs
    · injection h with h
      exact h ▸ hs

theorem presentFrame_keeps (k : PartsKeep P) {F : FrameWord} {s t : State} (hs : P s)
    (h : presentFrame F s = .next t) : P t := by
  unfold presentFrame at h
  split at h
  · exact exec_keeps k _ hs h
  · exact pushAll_keeps k.push _ hs h

/-- An instruction of the host followed by a move of the host alone. -/
theorem andThen_exec_keeps (k : PartsKeep P) {i : Instr} {s t : State} {f : State → Result}
    (hf : ∀ u v, f u = .next v → sameParser u v ∧ v.strict = u.strict) (hs : P s)
    (h : andThen (exec i s) f = .next t) : P t := by
  obtain ⟨u, hu, h⟩ := andThen_eq_next h
  obtain ⟨h₁, h₂⟩ := hf u t h
  exact k.outside u t h₁ h₂ (exec_keeps k i hs hu)

theorem next_goto_same (p : State → Phase) (u v : State) (h : (.next (goto (p u) u) : Result) = .next v) :
    sameParser u v ∧ v.strict = u.strict := by
  injection h with h
  subst h
  exact ⟨⟨rfl, rfl, rfl, rfl, rfl, rfl, rfl, rfl⟩, rfl⟩

theorem next_abandon_same (u v : State) (h : (.next (abandon u) : Result) = .next v) :
    sameParser u v ∧ v.strict = u.strict := by
  injection h with h
  subst h
  exact ⟨⟨rfl, rfl, rfl, rfl, rfl, rfl, rfl, rfl⟩, rfl⟩

theorem unlessError_same (p : Phase) (u v : State) (h : unlessError p u = .next v) :
    sameParser u v ∧ v.strict = u.strict := by
  unfold unlessError at h
  split at h
  · exact next_abandon_same u v h
  · exact next_goto_same (fun _ => p) u v h

theorem hostTurn_keeps (k : PartsKeep P) {dt : Nat} {c : Bool} {s t : State} (hs : P s)
    (h : hostTurn dt c s = .next t) : P t := by
  have hs' : P { s with elapsed := s.elapsed + dt } := k.outside s _ ⟨rfl, rfl, rfl, rfl, rfl, rfl, rfl, rfl⟩ rfl hs
  revert hs' h
  simp only [hostTurn]
  generalize { s with elapsed := s.elapsed + dt } = u
  intro h hu
  split at h
  · injection h with h
    subst h
    unfold warmUpTurn
    split <;> exact k.outside u _ ⟨rfl, rfl, rfl, rfl, rfl, rfl, rfl, rfl⟩ rfl hu
  · unfold readyTurn at h
    split at h
    · exact andThen_exec_keeps k (next_goto_same fun t => .clear t.elapsed) hu h
    · exact andThen_exec_keeps k (next_goto_same fun _ => .settle _) hu h
    · split at h <;> injection h with h <;> subst h
      · exact hu
      · exact k.outside u _ ⟨rfl, rfl, rfl, rfl, rfl, rfl, rfl, rfl⟩ rfl hu
    · split at h
      · unfold noByteTurn at h
        split at h
        · injection h with h
          exact h ▸ hu
        · split at h
          · injection h with h
            exact h ▸ hu
          · split at h
            · exact andThen_exec_keeps k next_abandon_same hu h
            · injection h with h
              subst h
              exact k.outside u _ ⟨rfl, rfl, rfl, rfl, rfl, rfl, rfl, rfl⟩ rfl hu
      · rename_i b bs _
        exact andThen_exec_keeps k (next_goto_same fun _ => _)
          (k.outside u { u with rx := bs } ⟨rfl, rfl, rfl, rfl, rfl, rfl, rfl, rfl⟩ rfl hu) h
    · exact andThen_exec_keeps k (unlessError_same _) hu h
    · exact andThen_exec_keeps k (unlessError_same _) hu h
    · injection h with h
      subst h
      exact k.outside u _ ⟨rfl, rfl, rfl, rfl, rfl, rfl, rfl, rfl⟩ rfl hu

/-- Every event, so every step, keeps what the parts keep. -/
theorem step_keeps (k : PartsKeep P) {s t : State} (hs : P s) (h : step s = .next t) : P t := by
  unfold step advance at h
  split at h
  · injection h with h
    exact h ▸ hs
  · rename_i e es _
    have hu : P { s with inputs := es } := k.outside s _ ⟨rfl, rfl, rfl, rfl, rfl, rfl, rfl, rfl⟩ rfl hs
    cases e with
    | pins rst cv w => exact presentPins_keeps k hu h
    | frame F => exact presentFrame_keeps k hu h
    | transmit => exact exec_keeps k .commandFrame hu h
    | serial b =>
      injection h with h
      subst h
      exact k.outside { s with inputs := es } _ ⟨rfl, rfl, rfl, rfl, rfl, rfl, rfl, rfl⟩ rfl hu
    | turn dt c => exact hostTurn_keeps k hu h

end Keeps

end Sys2Proof.Machine
end

