-- ==== Sys2Proof/Laws/Run.lean ====
section
/-!
SUPPORT. Runs: one step and then the rest, the induction over a run packaged once, and the run of a
program of command words (R6).
-/

namespace Sys2Proof.Machine

/-- The host's run of this machine is `runSteps`. -/
theorem core_run_eq (n : Nat) : ∀ s : State, Sys2Proof.core.run n s = runSteps n s := by
  induction n with
  | zero => exact fun _ => rfl
  | succ n ih =>
    intro s
    cases h : step s with
    | next t =>
      simp only [runSteps, h, andThen_next, ← ih]
      simp [Host.Core.run, Sys2Proof.core, h]
    | fault r => simp [runSteps, Host.Core.run, Sys2Proof.core, h]
    | refused r => simp [runSteps, Host.Core.run, Sys2Proof.core, h]

theorem run_zero (s : State) : runSteps 0 s = .next s := rfl

theorem run_succ (s : State) (n : Nat) :
    runSteps (n + 1) s = andThen (step s) (runSteps n) := rfl

theorem run_succ_of_next {s t : State} (h : step s = .next t) (n : Nat) :
    runSteps (n + 1) s = runSteps n t := by
  rw [run_succ, h, andThen_next]

/-- What every step keeps, every run keeps. -/
theorem run_keeps {P : State → Prop} (hstep : ∀ s t, P s → step s = .next t → P t) (n : Nat) :
    ∀ {s t : State}, P s → runSteps n s = .next t → P t := by
  induction n with
  | zero =>
    intro s t hs h
    injection h with h
    exact h ▸ hs
  | succ n ih =>
    intro s t hs h
    rw [run_succ] at h
    obtain ⟨u, hu, h⟩ := andThen_eq_next h
    exact ih (hstep s u hs hu) h

/-- The first word of a program is presented, then the rest is run. -/
theorem run_loadWords_cons (w : CmdWord) (ws : List CmdWord) (s : State) :
    runSteps (ws.length + 1) (loadWords (w :: ws) s) =
      andThen (presentWord w (loadWords ws s)) (runSteps ws.length) := by
  rw [run_succ]
  rfl

end Sys2Proof.Machine
end

