-- ==== Sys2Proof/Laws/Frames.lean ====
section
/-!
SUPPORT. A chain of PUSHes, said once: where it fits the buffer every byte lands at its offset and
nothing else changes; a chain is its parts; runs of words; what no instruction touches.
-/

namespace Sys2Proof.Machine

theorem pushAll_append (as bs : List Byte) (s : State) :
    pushAll (as ++ bs) s = andThen (pushAll as s) (pushAll bs) := by
  induction as generalizing s with
  | nil => rfl
  | cons a as ih =>
    simp only [List.cons_append, pushAll]
    cases execPush a s <;> simp [ih]

theorem frameBytes_length (f : Frame) : (frameBytes f).length = 9 := rfl

/-- Bytes that fit are stored in order from offset FILL on (R24, R41). -/
theorem pushAll_of_room (bs : List Byte) : ∀ s : State, s.err = .noError →
    s.fill.toNat + bs.length ≤ 9 →
    ∃ t, pushAll bs s = .next t ∧ t.fill.toNat = s.fill.toNat + bs.length ∧
      (∀ a, a < s.fill.toNat → bufRead t a = bufRead s a) ∧
      (∀ a, s.fill.toNat ≤ a → a < s.fill.toNat + bs.length →
        bufRead t a = bs[a - s.fill.toNat]?) ∧
      (∀ a, a < s.fill.toNat ∨ 9 ≤ a → Memory.read t.buf a = Memory.read s.buf a) ∧
      t.vd = s.vd ∧ t.csum = s.csum ∧ t.csok = s.csok ∧ t.ppm = s.ppm ∧ t.pv = s.pv ∧
      t.err = s.err ∧ sameOutside s t := by
  induction bs with
  | nil =>
    intro s _ _
    exact ⟨s, rfl, rfl, fun _ _ => rfl, fun a h1 h2 => absurd h1 (Nat.not_le.mpr h2),
      fun _ _ => rfl, rfl, rfl, rfl, rfl, rfl, rfl,
      ⟨rfl, rfl, rfl, rfl, rfl, rfl, rfl, rfl, rfl, rfl, rfl⟩⟩
  | cons b bs ih =>
    intro s he hl
    simp only [List.length_cons] at hl
    have hf : s.fill.toNat < 9 := by omega
    have hm := storeByte_fill_toNat b hf
    obtain ⟨t, ht, h1, h2, h3, h4, h5⟩ := ih (storeByte b s) he (by omega)
    refine ⟨t, by simp [pushAll, execPush_of_room he hf, ht], ?_, ?_, ?_, ?_, h5⟩
    · rw [h1, hm, List.length_cons]
      omega
    · intro a ha
      rw [h2 a (by omega), bufRead_storeByte_other b hf (by omega)]
    · intro a ha1 ha2
      simp only [List.length_cons] at ha2
      by_cases e : a = s.fill.toNat
      · subst e
        rw [h2 _ (by omega), bufRead_storeByte_same b hf]
        simp
      · rw [h3 a (by omega) (by omega), hm]
        obtain ⟨k, rfl⟩ := Nat.exists_eq_add_of_lt (Nat.lt_of_le_of_ne ha1 (Ne.symm e))
        have e1 : s.fill.toNat + k + 1 - (s.fill.toNat + 1) = k := by omega
        have e2 : s.fill.toNat + k + 1 - s.fill.toNat = k + 1 := by omega
        rw [e1, e2]
        simp
    · intro a ha
      rw [h4 a (by omega)]
      exact Memory.read_write_other _ _ _ _ (by omega)

/-- A frame presented is its nine PUSHes, whatever byte 0 is (R37, R41, R92; log entry 24). -/
theorem presentFrame_eq (F : FrameWord) (s : State) :
    presentFrame F s = pushAll (frameBytes (frameOfWord F)) s := by
  unfold presentFrame
  split
  · rename_i i h
    simp only [decode, decodeRx] at h
    split at h
    · injection h with h
      subst h
      rfl
    · cases h
  · rfl

/-- With FILL in range no PUSH of a chain stops (R12, R20). -/
theorem pushAll_no_fault (bs : List Byte) (r : Fault) : ∀ s : State, s.fill.toNat ≤ 9 →
    pushAll bs s ≠ .fault r := by
  induction bs with
  | nil =>
    intro s _ h
    cases h
  | cons b bs ih =>
    intro s hs
    by_cases he : s.err = .noError
    · by_cases hf : s.fill = 9#4
      · simpa [pushAll, execPush_of_full he hf] using ih (raise .overrun s) hs
      · have hr : s.fill.toNat < 9 := Nat.lt_of_le_of_ne hs (hf ∘ (fill_eq_nine_iff s).mpr)
        have hm := storeByte_fill_toNat b hr
        simpa [pushAll, execPush_of_room he hr] using ih (storeByte b s) (by omega)
    · simpa [pushAll, execPush_of_err he] using ih s hs

/-- A run is its parts. -/
theorem run_add (m n : Nat) (s : State) :
    runSteps (m + n) s = andThen (runSteps m s) (runSteps n) := by
  induction m generalizing s with
  | zero => simp [runSteps]
  | succ m ih =>
    rw [Nat.succ_add, runSteps, runSteps]
    cases step s <;> simp [ih]

theorem loadWords_append (vs ws : List CmdWord) (s : State) :
    loadWords (vs ++ ws) s = loadWords vs (loadWords ws s) := by
  simp [loadWords]

/-- The step of a defined command word is its instruction, on the rest of the program. -/
theorem step_loadWords_cons {w : CmdWord} {i : Instr} (h : decode (.cmd w) = .ok i)
    (ws : List CmdWord) (s : State) :
    step (loadWords (w :: ws) s) = exec i (loadWords ws s) := by
  rw [step_cons (e := .pins false true w) (es := ws.map (.pins false true) ++ s.inputs) rfl]
  simp [runEvent, presentPins, presentWord, h]
  rfl

/-- What is neither a register of the parser nor the wire towards the sensor. -/
abbrev sameHost (s t : State) : Prop :=
  t.strict = s.strict ∧ t.inputs = s.inputs ∧ t.mode = s.mode ∧ t.elapsed = s.elapsed ∧
    t.phase = s.phase ∧ t.report = s.report ∧ t.rx = s.rx ∧ t.warmup = s.warmup ∧
    t.settleDelay = s.settleDelay ∧ t.readTimeout = s.readTimeout

theorem sameHost_refl (s : State) : sameHost s s :=
  ⟨rfl, rfl, rfl, rfl, rfl, rfl, rfl, rfl, rfl, rfl⟩

theorem sameHost_trans {s t u : State} (h : sameHost s t) (h' : sameHost t u) : sameHost s u := by
  obtain ⟨a1, a2, a3, a4, a5, a6, a7, a8, a9, a10⟩ := h
  obtain ⟨b1, b2, b3, b4, b5, b6, b7, b8, b9, b10⟩ := h'
  exact ⟨b1.trans a1, b2.trans a2, b3.trans a3, b4.trans a4, b5.trans a5, b6.trans a6,
    b7.trans a7, b8.trans a8, b9.trans a9, b10.trans a10⟩

/-- No instruction touches the host, the strap or the schedule. -/
theorem exec_sameHost {i : Instr} {s t : State} (h : exec i s = .next t) : sameHost s t := by
  have hpush : ∀ d u v, sameHost s u → execPush d u = .next v → sameHost s v := by
    intro d u v hu hv
    rcases execPush_cases hv with ⟨_, rfl⟩ | ⟨_, _, rfl⟩ | ⟨_, _, rfl⟩ <;> exact hu
  cases i with
  | clr =>
    injection h with h
    exact h ▸ sameHost_refl s
  | push d => exact hpush d s t (sameHost_refl s) h
  | val =>
    rcases execVal_cases h with ⟨_, rfl⟩ | ⟨_, _, rfl⟩ | ⟨_, _, _, rfl⟩ |
      ⟨_, _, _, _, _, _, _, rfl⟩ <;> exact sameHost_refl _
  | dec =>
    rcases execDec_cases h with ⟨_, rfl⟩ | ⟨_, _, rfl⟩ | ⟨_, _, _, rfl⟩ |
      ⟨_, _, _, _, _, rfl⟩ | ⟨_, _, _, _, _, _, rfl⟩ <;> exact sameHost_refl _
  | responseFrame f => exact pushAll_keeps hpush _ (sameHost_refl s) h
  | commandFrame =>
    injection h with h
    exact h ▸ sameHost_refl s

end Sys2Proof.Machine
end

