-- ==== Sys2Proof/Laws/PerInstr.lean ====
section
/-!
SUPPORT. The per-instruction family RowMatch: the encoding of every well-formed instruction selects
its row of spec/opcode_table.json, by the row's match and mask, and no other row of its format.
-/

namespace Sys2Proof.Laws.RowMatch

open Sys2Proof Sys2Proof.Machine

/-- The rows of format OP11 (R35), as (mask, match). -/
def op11Rows : List (CmdWord × CmdWord) :=
  [(0x7FF, 0x100), (0x700, 0x200), (0x7FF, 0x300), (0x7FF, 0x400)]

/-- A word selects the `k`-th row of OP11 and none of the others. -/
def SelectsOnly (k : Nat) (w : CmdWord) : Prop :=
  op11Rows.map (fun r => selects r.1 r.2 w) = (List.range 4).map (· == k)

/-- The row of an instruction is the one its encoding selects. -/
def Statement (i : Instr) : Prop :=
  i.wellFormed = true →
    match i, encode i with
    | .clr, .cmd w => SelectsOnly 0 w
    | .push d, .cmd w => SelectsOnly 1 w ∧ cmdData w = d
    | .val, .cmd w => SelectsOnly 2 w
    | .dec, .cmd w => SelectsOnly 3 w
    | .responseFrame _, .rx F => F.extractLsb' 64 8 = 0xFF
    | .commandFrame, .tx F => F &&& BitVec.allOnes 72 = 0xFF0186000000000079
    | _, _ => False

theorem clr : Statement .clr := by
  intro _
  show SelectsOnly 0 _
  unfold SelectsOnly
  decide

theorem push_words : ∀ d : Byte, op11Rows.map (fun r => selects r.1 r.2 (cmdWordOf 0b010 d)) =
    (List.range 4).map (· == 1) ∧ cmdData (cmdWordOf 0b010 d) = d := by
  decide +kernel

theorem push (d : Byte) : Statement (.push d) := fun _ => push_words d

theorem val : Statement .val := by
  intro _
  show SelectsOnly 2 _
  unfold SelectsOnly
  decide

theorem dec : Statement .dec := by
  intro _
  show SelectsOnly 3 _
  unfold SelectsOnly
  decide

theorem responseFrame (f : Frame) : Statement (.responseFrame f) := by
  intro h
  have h : f.b0 = Config.marker := by simpa [Instr.wellFormed] using h
  show (frameToWord f).extractLsb' 64 8 = Config.marker
  rw [← h]
  apply BitVec.eq_of_getLsbD_eq
  intro i hi
  simp only [frameToWord, BitVec.getLsbD_extractLsb', BitVec.getLsbD_or,
    BitVec.getLsbD_shiftLeft, BitVec.getLsbD_setWidth, hi]
  interval_cases i <;> simp

theorem commandFrame : Statement .commandFrame := by
  intro _
  show Config.cmdFrame &&& BitVec.allOnes 72 = 0xFF0186000000000079
  decide

end Sys2Proof.Laws.RowMatch
end

