-- ==== Sys2Proof/Tests/Slice0.lean ====
section
/-!
SUPPORT. Tests: words written out from R31, R32, R35; single steps from 95_test_vectors.md section
2; the WellFormed smoke; and a witness for the hypotheses of every obligation.
-/

namespace Sys2Proof.Tests

open Sys2Proof Sys2Proof.Machine

/-- What holds of the next state, false where there is none. -/
def after (o : Result) (p : State → Bool) : Bool :=
  match o with
  | .next s => p s
  | .fault _ => false
  | .refused _ => false

/-- The frame of vectors F1 and O8; `b8` is its received checksum. -/
def frame (b8 : Byte) : Frame :=
  { b0 := 0xFF, b1 := 0x86, b2 := 0x03, b3 := 0xE8, b4 := 0, b5 := 0, b6 := 0, b7 := 0, b8 := b8 }

/-- The first bytes of a frame, listed. -/
def listed (f : Frame) (n : Nat) : Memory := (List.range n).zip ((frameBytes f).take n)

/-- `n` bytes of the frame received. -/
def received (b8 : Byte) (n : Nat) : State :=
  { State.reset with buf := listed (frame b8) n, fill := BitVec.ofNat 4 n }

/-- The frame with a first byte that is not the marker. -/
def badMarker : State :=
  { State.reset with buf := listed { frame 0x8F with b0 := 0xFE } 9, fill := 9 }

/-- After a VAL of the complete frame. -/
def validated (b8 : Byte) (ok strict : Bool) : State :=
  { received b8 9 with vd := true, csum := some 0x8F, csok := ok, strict := strict }

/-- After a DEC of the good frame. -/
def decoded : State := { validated 0x8F true true with ppm := some 1000, pv := true }

/-- After an error. -/
def failed : State := { received 0x8F 3 with err := .short }

/-- A READY host with durations of the test's own. -/
def readyHost (p : Phase) (s : State) : State :=
  { s with mode := .ready, phase := p, elapsed := 10, warmup := 5, settleDelay := 2
           readTimeout := some 3 }

/-- One pin step presented. -/
def pinned (rst cv : Bool) (w : CmdWord) (s : State) : State :=
  { s with inputs := [.pins rst cv w] }

/-- One host turn presented. -/
def turned (dt : Nat) (c : Bool) (s : State) : State := { s with inputs := [.turn dt c] }

/-! ### WellFormed -/

theorem test_wellFormed_accepts :
    [Instr.clr, .push 0x12, .val, .dec, .responseFrame (frame 0), .commandFrame].all
      Instr.wellFormed = true := by decide

theorem test_wellFormed_refuses_wrong_marker :
    (Instr.responseFrame { frame 0 with b0 := 0xFE }).wellFormed = false := by decide

/-! ### Words, bit by bit from R35 and R31, R32 -/

theorem test_decode_clr : decode (.cmd 0b00100000000) = .ok .clr := by decide
theorem test_decode_push : decode (.cmd 0b01000000011) = .ok (.push 0x03) := by decide
theorem test_decode_val : decode (.cmd 0b01100000000) = .ok .val := by decide
theorem test_decode_dec : decode (.cmd 0b10000000000) = .ok .dec := by decide
theorem test_decode_response_frame :
    decode (.rx 0xFF8603E8000000008F) = .ok (.responseFrame (frame 0x8F)) := by decide
theorem test_decode_command_frame :
    decode (.tx 0xFF0186000000000079) = .ok .commandFrame := by decide
theorem test_decode_zero_word : decode (.cmd 0x000) = .error (.reservedOp 0) := by decide
theorem test_decode_malformed_clr : decode (.cmd 0x101) = .error (.reservedData 0x101) := by decide
theorem test_decode_op7 : decode (.cmd 0x7FF) = .error (.reservedOp 7) := by decide
theorem test_decode_rx_wrong_marker :
    decode (.rx 0xFE8603E8000000008F) = .error (.wrongMarker 0xFE) := by decide
theorem test_decode_loopback_is_a_response :
    decode (.rx 0xFF0186000000000079) = .ok (.responseFrame (frameOfWord Config.cmdFrame)) := by
  decide
theorem test_encode_push : encode (.push 0xE8) = .cmd 0x2E8 := by decide
theorem test_encode_response_frame :
    encode (.responseFrame (frame 0x8F)) = .rx 0xFF8603E8000000008F := by decide
theorem test_table_words :
    [decodeTableWord 16 0x100, decodeTableWord 16 0x300, decodeTableWord 72 0xFF0186000000000079] =
      [some .clr, some .val, some .commandFrame] := by decide
theorem test_table_word_too_wide : decodeTableWord 16 0x900 = none := by decide

/-! ### Arithmetic, vectors K1, K2, K8, K9 and M7, M11, M12 -/

theorem test_cksum_document : cksum 0x01 0x86 0 0 0 0 0 = 0x79 := by decide
theorem test_cksum_zero_wraps : cksum 0 0 0 0 0 0 0 = 0x00 := by decide
theorem test_cksum_own_negation : cksum 0x7F 0x01 0 0 0 0 0 = 0x80 := by decide
theorem test_cksum_largest_sum : cksum 0xFF 0xFF 0xFF 0xFF 0xFF 0xFF 0xFF = 0x07 := by decide
theorem test_concentration_order : (concentration 0xE8 0x03).toNat = 59395 := by decide
theorem test_concentration_unsigned : (concentration 0x80 0x00).toNat = 32768 := by decide
theorem test_concentration_largest : (concentration 0xFF 0xFF).toNat = 65535 := by decide

/-! ### Single operations, vectors O1 to O24 -/

theorem test_clr_after_error :
    after (exec .clr { badMarker with err := .marker }) (fun t =>
      outputs t == outputs State.reset && t.buf == []) = true := by decide

theorem test_push_third_byte :
    after (exec (.push 0x03) (received 0x8F 2)) (fun t =>
      bufRead t 2 == some 0x03 && t.fill == 3 && bufRead t 1 == some 0x86) = true := by decide

theorem test_push_overrun_drops_reading :
    after (exec (.push 0x00) decoded) (fun t =>
      t.err.code == 4 && t.pv == false && t.ppm == none && t.csum == some 0x8F) = true := by decide

theorem test_val_good :
    after (exec .val (received 0x8F 9)) (fun t =>
      t.vd && t.csum == some 0x8F && t.csok && t.err.code == 0) = true := by decide

theorem test_val_mismatch_is_no_error :
    after (exec .val (received 0x90 9)) (fun t =>
      t.vd && t.csum == some 0x8F && !t.csok && t.err.code == 0) = true := by decide

theorem test_val_marker :
    after (exec .val badMarker) (fun t => t.err.code == 1 && !t.vd && t.csum == none) = true := by
  decide

theorem test_val_short_at_eight :
    after (exec .val (received 0x8F 8)) (fun t => t.err.code == 3) = true := by decide

theorem test_dec_good :
    after (exec .dec (validated 0x8F true true)) (fun t =>
      t.ppm == some 1000 && t.pv && t.err.code == 0) = true := by decide

theorem test_dec_mismatch_lenient :
    after (exec .dec (validated 0x90 false false)) (fun t => t.ppm == some 1000 && t.pv) = true := by
  decide

theorem test_dec_mismatch_strict :
    after (exec .dec (validated 0x90 false true)) (fun t =>
      t.err.code == 2 && !t.pv && t.ppm == none && t.vd && t.csum == some 0x8F) = true := by decide

theorem test_dec_empty_is_short_not_order :
    after (exec .dec State.reset) (fun t => t.err.code == 3) = true := by decide

theorem test_dec_before_val :
    after (exec .dec (received 0x8F 9)) (fun t => t.err.code == 5) = true := by decide

theorem test_response_frame_fills :
    after (exec (.responseFrame (frame 0x8F)) State.reset) (fun t =>
      full t && t.buf == listed (frame 0x8F) 9 && t.err.code == 0) = true := by decide

theorem test_command_frame_bytes :
    after (exec .commandFrame State.reset) (fun t =>
      t.tx == [0xFF, 0x01, 0x86, 0, 0, 0, 0, 0, 0x79]) = true := by decide

theorem test_reserved_word_raises :
    after (step (pinned false true 0x301 decoded)) (fun t =>
      t.err.code == 6 && !t.pv && t.ppm == none && t.vd) = true := by decide

theorem test_malformed_clr_does_not_clear :
    after (step (pinned false true 0x101 failed)) (fun t => t.err.code == 3) = true := by decide

theorem test_rst_wins :
    after (step (pinned true true 0x2FF failed)) (fun t =>
      outputs t == outputs State.reset && t.strict) = true := by decide

theorem test_fetch_word_push :
    after (step (State.reset.withFetchWord 16 0x2FF)) (fun t =>
      bufRead t 0 == some 0xFF && t.fill == 1) = true := by decide

/-! ### Assembler, R38, R39 and program P9 -/

theorem test_assemble_line :
    assembleText ["PUSH 0x03 ; third".toList, "; only a comment".toList, "PARSE".toList] =
      some [0x203, 0x300, 0x400] := by decide

theorem test_assemble_poll :
    assembleText ["POLL FF 01 86 00 00 00 00 00 79".toList] =
      some [0x100, 0x2FF, 0x201, 0x286, 0x200, 0x200, 0x200, 0x200, 0x200, 0x279, 0x300, 0x400] := by
  decide

theorem test_assemble_refuses_unknown : assembleText ["NOP".toList] = none := by decide

/-! ### Host, R56 to R60 and vector S4 -/

theorem test_warm_up_exceeds_is_strict :
    after (step (turned 5 false { State.reset with warmup := 5 })) (fun t =>
      t.mode == .warmingUp && t.report == -1) = true := by decide

theorem test_ceiling : (plausible 15000, plausible 15001) = (true, false) := by decide

theorem test_check_turn_reports :
    after (step (turned 1 false (readyHost .check decoded))) (fun t =>
      t.report == 1000 && t.phase == .transmit) = true := by decide

theorem test_transmit_turn_sends :
    after (step (turned 1 false (readyHost .transmit State.reset))) (fun t =>
      t.tx == [0xFF, 0x01, 0x86, 0, 0, 0, 0, 0, 0x79] && t.phase == .clear 11) = true := by decide

theorem test_timed_out_read_raises_short :
    after (step (turned 1 true (readyHost (.read 8 4) (received 0x8F 8)))) (fun t =>
      t.err.code == 3 && t.report == -1 && t.phase == .transmit) = true := by decide

/-! ### Witnesses: states and operands that meet the hypotheses of the obligations, clause by clause -/

theorem witness_decodeOfEncode : (Instr.responseFrame (frame 0x8F)).wellFormed = true := by decide

theorem witness_encodeOfDecode :
    decode (.cmd 0x2FF) = .ok (.push 0xFF) ∧
    decode (.rx 0xFF0000000000000000) = .ok (.responseFrame (frameOfWord 0xFF0000000000000000)) ∧
    decode (.tx 0xFF0186000000000079) = .ok .commandFrame := by decide

theorem witness_reservedWords :
    (pinned false true 0x101 decoded).inputs = [.pins false true 0x101] ∧
    decode (.cmd 0x101) = .error (.reservedData 0x101) ∧ decoded.err = .noError ∧
    (pinned false true 0x000 failed).inputs = [.pins false true 0x000] ∧
    decode (.cmd 0x000) = .error (.reservedOp 0) ∧ failed.err ≠ .noError ∧
    cmdOp 0x101 = 0b001 ∧ cmdData 0x101 ≠ 0x00 := by decide

theorem witness_checksum :
    (List.range 8).map (bufRead (received 0x8F 9)) =
      [some 0xFF, some 0x86, some 0x03, some 0xE8, some 0, some 0, some 0, some 0] := by decide

theorem witness_checksumLaws :
    [(1 : Byte), 2, 3, 4, 5, 6, 7].Perm [7, 6, 5, 4, 3, 2, 1] := by decide

theorem witness_pins :
    (pinned true false 0x7FF decoded).inputs = [.pins true false 0x7FF] ∧
    (pinned false false 0x7FF decoded).inputs = [.pins false false 0x7FF] ∧
    (pinned false true 0x100 failed).inputs = [.pins false true 0x100] ∧
    (pinned false true 0x200 failed).inputs = [.pins false true 0x200] ∧
    decoded.inputs = [] ∧ failed.err ≠ .noError ∧ (0x200 : CmdWord) ≠ 0x100#11 := by decide

theorem witness_clrIsReset : parserClear State.reset := by decide

theorem witness_stepRunsDecoded :
    decode (.cmd 0x400) = .ok .dec ∧
    decode (.rx 0xFF8603E8000000008F) = .ok (.responseFrame (frame 0x8F)) ∧
    decode (.tx Config.cmdFrame) = .ok .commandFrame ∧
    { State.reset with inputs := [.pins false true 0x400] }.inputs = [.pins false true 0x400] ∧
    { State.reset with inputs := [.frame 0xFF8603E8000000008F] }.inputs =
      [.frame 0xFF8603E8000000008F] ∧
    { State.reset with inputs := [.transmit] }.inputs = [.transmit] := by decide

/-- A frame event: any frame; and one with a wrong marker on an empty buffer. -/
theorem witness_frameEvent :
    (let s := { State.reset with inputs := [.frame 0xFE8603E8000000008F] };
      s.inputs = [.frame 0xFE8603E8000000008F] ∧ s.err = .noError ∧ s.fill = 0#4) ∧
    decode (.rx 0xFE8603E8000000008F) = .error (.wrongMarker 0xFE) := by decide

theorem witness_serial :
    { State.reset with inputs := [.serial 0xFF], rx := [0x01] }.inputs = [.serial 0xFF] := by decide

theorem witness_fetchWord : decodeTableWord 72 0xFF0000000000000000 =
    some (.responseFrame (frameOfWord 0xFF0000000000000000)) := by decide

/-- PUSH: ignored, full, and room at FILL 0 and 8. -/
theorem witness_push :
    failed.err ≠ .noError ∧
    (decoded.err = .noError ∧ decoded.fill = 9#4) ∧
    (State.reset.err = .noError ∧ State.reset.fill.toNat < 9) ∧
    ((received 0x8F 8).err = .noError ∧ (received 0x8F 8).fill.toNat < 9 ∧
      (received 0x8F 8).fill = 8#4) := by decide

/-- The stops: FILL 10 and 15; no byte 0; no byte of 1 to 7; no byte 8; no byte 2 for DEC. -/
theorem witness_stops :
    ({ State.reset with fill := 10 }.err = .noError ∧ 9 < { State.reset with fill := 10 }.fill.toNat ∧
      9 < { State.reset with fill := 15 }.fill.toNat) ∧
    (let s := { State.reset with fill := 9 };
      s.err = .noError ∧ s.fill = 9#4 ∧ bufRead s 0 = none) ∧
    (let s := { State.reset with fill := 9, buf := [(0, 0xFF)] };
      s.err = .noError ∧ s.fill = 9#4 ∧ bufRead s 0 = some 0xFF#8 ∧ bufCksum s = none) ∧
    (let s := { State.reset with fill := 9, buf := listed (frame 0) 8 };
      s.err = .noError ∧ s.fill = 9#4 ∧ bufRead s 0 = some 0xFF#8 ∧ bufCksum s = some 0x8F ∧
        bufRead s 8 = none) ∧
    (let s := { State.reset with fill := 9, buf := [(0, 0xFF)], vd := true, csok := true };
      s.err = .noError ∧ s.fill = 9#4 ∧ s.vd = true ∧ s.csok = true ∧ bufConcentration s = none) := by
  decide

theorem witness_stops_any : exec .val { State.reset with fill := 9 } = .fault (.noValue 0) := rfl

/-- VAL: ignored, short at FILL 0 and 8, wrong marker, nine bytes, repeated, already validated. -/
theorem witness_val :
    failed.err ≠ .noError ∧
    (State.reset.err = .noError ∧ State.reset.fill ≠ 9#4) ∧ (received 0x8F 8).fill ≠ 9#4 ∧
    (badMarker.err = .noError ∧ badMarker.fill = 9#4 ∧ bufRead badMarker 0 = some 0xFE ∧
      (0xFE : Byte) ≠ 0xFF#8) ∧
    ((received 0x8F 9).err = .noError ∧ (received 0x8F 9).fill = 9#4 ∧
      (List.range 9).map (bufRead (received 0x8F 9)) = (frameBytes (frame 0x8F)).map some) ∧
    decoded.vd = true := by decide

theorem witness_val_repeated : ∃ t, exec .val (received 0x8F 9) = .next t := ⟨_, rfl⟩

/-- DEC: ignored, short, order, checksum, both ways of success, repeated. -/
theorem witness_dec :
    failed.err ≠ .noError ∧ (State.reset.err = .noError ∧ State.reset.fill ≠ 9#4) ∧
    ((received 0x8F 9).err = .noError ∧ (received 0x8F 9).fill = 9#4 ∧
      (received 0x8F 9).vd = false) ∧
    (let s := validated 0x90 false true;
      s.err = .noError ∧ s.fill = 9#4 ∧ s.vd = true ∧ s.strict = true ∧ s.csok = false) ∧
    (let s := validated 0x90 false false;
      s.err = .noError ∧ s.fill = 9#4 ∧ s.vd = true ∧ s.strict = false ∧
        bufRead s 2 = some 0x03 ∧ bufRead s 3 = some 0xE8) ∧
    (let s := validated 0x8F true true;
      s.err = .noError ∧ s.fill = 9#4 ∧ s.vd = true ∧ s.csok = true ∧
        bufRead s 2 = some 0x03 ∧ bufRead s 3 = some 0xE8) := by decide

theorem witness_dec_repeated : ∃ t, exec .dec (validated 0x8F true true) = .next t := ⟨_, rfl⟩

/-- RESPONSE_FRAME: empty buffer, FILL 1 and 9, ERR not 0. -/
theorem witness_responseFrame :
    (State.reset.err = .noError ∧ State.reset.fill = 0#4) ∧
    ((received 0x8F 1).err = .noError ∧ 0 < (received 0x8F 1).fill.toNat ∧
      (received 0x8F 1).fill.toNat ≤ 9) ∧
    (decoded.err = .noError ∧ 0 < decoded.fill.toNat ∧ decoded.fill.toNat ≤ 9) ∧
    failed.err ≠ .noError := by decide

theorem witness_errorEntry : ∃ t, step (pinned false true 0x200 decoded) = .next t ∧
    t.err ≠ .noError ∧ decoded.err = .noError ∧
    (pinned false true 0x200 decoded).inputs = [.pins false true 0x200] :=
  ⟨_, rfl, by decide, by decide, rfl⟩

theorem witness_errorHolds : ∃ t, (pinned false true 0x300 failed).err ≠ .noError ∧
    step (pinned false true 0x300 failed) = .next t := ⟨_, by decide, rfl⟩

/-- The invariants hold of a decoded frame and of each error's state. -/
theorem witness_parserInv :
    ParserInv decoded ∧ ParserInv failed ∧ ParserInv (received 0x8F 8) ∧
    ParserInv { badMarker with err := .marker } ∧
    ParserInv { validated 0x90 false true with err := .checksum } ∧
    ParserInv { received 0x8F 9 with err := .order } ∧
    ParserInv { validated 0x8F true true with err := .overrun } :=
  ⟨by decide, by decide, by decide, by decide, by decide, by decide, by decide⟩

/-- A step from a state that meets every step-wise premise: the invariants, the canonical form, the
range of FILL, and the host's. -/
theorem witness_step : ∃ t, step (pinned false true 0x200 decoded) = .next t ∧
    ParserInv (pinned false true 0x200 decoded) ∧
    Memory.wf (pinned false true 0x200 decoded).buf ∧
    (pinned false true 0x200 decoded).fill.toNat ≤ 9 ∧
    ReportPlausible (pinned false true 0x200 decoded) ∧
    WarmingUpReportsSentinel (pinned false true 0x200 decoded) :=
  ⟨_, rfl, by decide, by decide, by decide, by decide, by decide⟩

theorem witness_reachable :
    ∃ s, runSteps 1 { State.reset with strict := false, inputs := [.pins false true 0x300] } =
      .next s ∧ s.err = .short := ⟨_, rfl, rfl⟩

theorem witness_noRetention : decoded.strict = failed.strict := by decide

theorem witness_forgottenClr : decoded.err = .noError ∧ decoded.fill = 9#4 := by decide

theorem witness_warmUp :
    (turned 6 false { State.reset with warmup := 5 }).inputs = [.turn 6 false] ∧
    (turned 6 false { State.reset with warmup := 5 }).mode = .warmingUp ∧
    State.reset.report = -1 ∧
    { State.reset with warmup := 5 }.elapsed + ([(2, false), (3, true)].map Prod.fst).sum ≤
      { State.reset with warmup := 5 }.warmup := by decide

theorem witness_readyStays : ∃ t, (readyHost .check decoded).mode = .ready ∧
    step (readyHost .check decoded) = .next t := ⟨_, rfl, rfl⟩

/-- One state for each clause of the turns up to reading, at the boundary of each wait: the settle
delay one short and just over, the time-out one short and just over. -/
theorem witness_turnsUpToReading :
    (turned 1 false (readyHost .transmit State.reset)).inputs = [.turn 1 false] ∧
    (readyHost .transmit State.reset).mode = .ready ∧
    (readyHost .transmit State.reset).phase = .transmit ∧
    (readyHost (.clear 10) State.reset).phase = .clear 10 ∧
    (let s := readyHost (.settle 10) State.reset;
      s.elapsed + 1 - 10 < s.settleDelay ∧ s.settleDelay ≤ s.elapsed + 2 - 10) ∧
    (let s := { readyHost (.read 8 9) (received 0x8F 8) with rx := [0x8F] };
      s.phase = .read 8 9 ∧ s.rx = [0x8F] ∧ FillInRange s) ∧
    (let s := { readyHost (.read 0 9) State.reset with readTimeout := none };
      s.phase = .read 0 9 ∧ s.rx = [] ∧ s.readTimeout = none) ∧
    (let s := readyHost (.read 8 9) (received 0x8F 8);
      s.rx = [] ∧ s.readTimeout = some 3 ∧ s.elapsed + 1 - 9 < 3 ∧ 3 ≤ s.elapsed + 2 - 9 ∧
        s.err = .noError ∧ s.fill ≠ 9#4) := by decide

theorem witness_timeoutVal :
    ∃ t, exec .val { readyHost (.read 8 9) (received 0x8F 8) with elapsed := 12 } = .next t :=
  ⟨_, rfl⟩

theorem witness_turnsAfterReading :
    (readyHost .validate (received 0x8F 9)).mode = .ready ∧
    ParserInv (readyHost .validate (received 0x8F 9)) ∧
    ParserInv (readyHost .decode (validated 0x8F true true)) ∧
    ParserInv (readyHost .decode (validated 0x90 false true)) ∧
    ParserInv (readyHost .validate badMarker) ∧ ParserInv (readyHost .check decoded) :=
  ⟨by decide, by decide, by decide, by decide, by decide, by decide⟩

theorem witness_reported :
    (let s := readyHost .check decoded;
      s.err = .noError ∧ s.pv = true ∧ s.ppm = some 1000 ∧ s.mode = .ready ∧ conc s = 1000) ∧
    failed.err ≠ .noError ∧ (received 0x8F 9).pv = false ∧ decoded.mode = .warmingUp := by decide

theorem witness_hang :
    (let s := { readyHost (.read 8 9) (received 0x8F 8) with readTimeout := none };
      s.mode = .ready ∧ s.phase = .read 8 9 ∧ s.rx = [] ∧ s.readTimeout = none) := by decide

theorem witness_pollCycle :
    (let s := { readyHost .transmit decoded with rx := frameBytes (frame 0x8F) };
      s.mode = .ready ∧ s.phase = .transmit ∧ s.rx = frameBytes (frame 0x8F) ∧
        s.settleDelay ≤ 2 * 1) := by decide

end Sys2Proof.Tests
end

/-!
The registers' family (spec/10_state.md): FILL stays in range, no step changes a parameter, and the
values after reset and CLR. The branches of the pins and of the host's turn are said once each.
-/

namespace Sys2Proof.Machine

/-! ### FILL stays in range (R12) -/

theorem fillInRange_of_fill_eq {s t : State} (h : t.fill = s.fill) (hs : FillInRange s) :
    FillInRange t := by
  rwa [FillInRange, h]

theorem execPush_fillInRange (d : Byte) (s t : State) (hs : FillInRange s)
    (h : execPush d s = .next t) : FillInRange t := by
  rcases execPush_cases h with ⟨_, rfl⟩ | ⟨_, _, rfl⟩ | ⟨_, hroom, rfl⟩
  case inl => exact hs
  case inr.inl => exact hs
  case inr.inr =>
    have hfill := storeByte_fill_toNat d hroom
    show (storeByte d s).fill.toNat ≤ 9
    omega

theorem execVal_fill {s t : State} (h : execVal s = .next t) : t.fill = s.fill := by
  rcases execVal_cases h with ⟨_, rfl⟩ | ⟨_, _, rfl⟩ | ⟨_, _, _, rfl⟩ | ⟨_, _, _, _, _, _, _, rfl⟩ <;>
    rfl

theorem execDec_fill {s t : State} (h : execDec s = .next t) : t.fill = s.fill := by
  rcases execDec_cases h with ⟨_, rfl⟩ | ⟨_, _, rfl⟩ | ⟨_, _, _, rfl⟩ | ⟨_, _, _, _, _, rfl⟩ |
    ⟨_, _, _, _, _, _, rfl⟩ <;> rfl

theorem reservedWord_fill (s : State) : (reservedWord s).fill = s.fill := by
  rcases reservedWord_cases s with ⟨_, h⟩ | ⟨_, h⟩ <;> rw [h]
  rfl

/-- Only PUSH raises FILL, and only where there is room; reset and CLR empty the buffer. -/
theorem fillInRange_partsKeep : PartsKeep FillInRange where
  outside s t hparser _ hs := by
    obtain ⟨_, hfill, _⟩ := hparser
    exact fillInRange_of_fill_eq hfill hs
  reset s _ := by simp
  push := execPush_fillInRange
  val s t hs h := fillInRange_of_fill_eq (execVal_fill h) hs
  dec s t hs h := fillInRange_of_fill_eq (execDec_fill h) hs
  reserved s hs := fillInRange_of_fill_eq (reservedWord_fill s) hs

/-- Settles O31: a byte is stored only where FILL is below 9, and nothing else raises FILL. -/
theorem stepKeepsFillInRange : Obligations.StepKeepsFillInRange :=
  fun _ _ hs h => step_keeps fillInRange_partsKeep hs h

/-! ### What the pins and a turn of the host can do -/

/-- Everything one step of the pins can answer with a next state, in the order of R74. -/
theorem presentPins_cases {rst cv : Bool} {w : CmdWord} {s t : State}
    (h : presentPins rst cv w s = .next t) :
    (rst = true ∧ t = resetParser s) ∨
    (rst = false ∧ cv = false ∧ t = s) ∨
    (rst = false ∧ cv = true ∧ (∃ e, decode (.cmd w) = .error e) ∧ t = reservedWord s) ∨
    (rst = false ∧ cv = true ∧ ∃ i, decode (.cmd w) = .ok i ∧ exec i s = .next t) := by
  cases rst with
  | true =>
    injection h with h
    exact .inl ⟨rfl, h.symm⟩
  | false =>
    cases cv with
    | false =>
      injection h with h
      exact .inr (.inl ⟨rfl, rfl, h.symm⟩)
    | true =>
      change presentWord w s = .next t at h
      unfold presentWord at h
      split at h
      · exact .inr (.inr (.inr ⟨rfl, rfl, _, ‹_›, h⟩))
      · injection h with h
        exact .inr (.inr (.inl ⟨rfl, rfl, ⟨_, ‹_›⟩, h.symm⟩))

/-- The host's own writes as it moves through the poll cycle: its place in it and its report. -/
def HostMove (s t : State) : Prop := ∃ p r, t = { s with phase := p, report := r }

theorem hostMove_refl (s : State) : HostMove s s := ⟨s.phase, s.report, rfl⟩

theorem hostMove_goto (p : Phase) (s : State) : HostMove s (goto p s) := ⟨p, s.report, rfl⟩

theorem hostMove_abandon (s : State) : HostMove s (abandon s) :=
  ⟨.transmit, Config.sentinel, rfl⟩

theorem hostMove_of_next {s t u : State} (hu : HostMove s u)
    (h : (.next u : Result) = .next t) : HostMove s t := by
  injection h with h
  exact h ▸ hu

theorem hostMove_unlessError {p : Phase} {s t : State} (h : unlessError p s = .next t) :
    HostMove s t := by
  unfold unlessError at h
  split at h
  · exact hostMove_of_next (hostMove_abandon s) h
  · exact hostMove_of_next (hostMove_goto p s) h

/-- What a turn of the READY host does (R58): the serial channel may lose a byte, at most one
instruction runs, then the host moves. -/
def ReadyMove (s t : State) : Prop :=
  ∃ bs u, (u = { s with rx := bs } ∨ ∃ i, exec i { s with rx := bs } = .next u) ∧ HostMove u t

theorem readyMove_of_hostMove {s t : State} (h : HostMove s t) : ReadyMove s t :=
  ⟨s.rx, s, .inl rfl, h⟩

theorem readyMove_of_exec {i : Instr} {bs : List Byte} {s t : State} {f : State → Result}
    (hf : ∀ u, f u = .next t → HostMove u t)
    (h : andThen (exec i { s with rx := bs }) f = .next t) : ReadyMove s t := by
  obtain ⟨u, hu, hft⟩ := andThen_eq_next h
  exact ⟨bs, u, .inr ⟨i, hu⟩, hf u hft⟩

theorem noByteTurn_readyMove {since : Nat} {c : Bool} {s t : State}
    (h : noByteTurn since c s = .next t) : ReadyMove s t := by
  unfold noByteTurn at h
  split at h
  · exact readyMove_of_hostMove (hostMove_of_next (hostMove_refl s) h)
  · split at h
    · exact readyMove_of_hostMove (hostMove_of_next (hostMove_refl s) h)
    · split at h
      · exact readyMove_of_exec (bs := s.rx) (fun u => hostMove_of_next (hostMove_abandon u)) h
      · exact readyMove_of_hostMove (hostMove_of_next (hostMove_abandon s) h)

theorem readyTurn_readyMove {c : Bool} {s t : State} (h : readyTurn c s = .next t) :
    ReadyMove s t := by
  unfold readyTurn at h
  split at h
  case h_1 => exact readyMove_of_exec (bs := s.rx) (fun u => hostMove_of_next (hostMove_goto _ u)) h
  case h_2 => exact readyMove_of_exec (bs := s.rx) (fun u => hostMove_of_next (hostMove_goto _ u)) h
  case h_3 =>
    split at h
    · exact readyMove_of_hostMove (hostMove_of_next (hostMove_refl s) h)
    · exact readyMove_of_hostMove (hostMove_of_next (hostMove_goto _ s) h)
  case h_4 =>
    split at h
    · exact noByteTurn_readyMove h
    · exact readyMove_of_exec (fun u => hostMove_of_next (hostMove_goto _ u)) h
  case h_5 => exact readyMove_of_exec (bs := s.rx) (fun _ => hostMove_unlessError) h
  case h_6 => exact readyMove_of_exec (bs := s.rx) (fun _ => hostMove_unlessError) h
  case h_7 => exact readyMove_of_hostMove (hostMove_of_next ⟨.transmit, conc s, rfl⟩ h)

/-- Everything a turn of the host can answer with a next state, by its mode (R57, R58). -/
theorem hostTurn_cases {dt : Nat} {c : Bool} {s t : State} (h : hostTurn dt c s = .next t) :
    (s.mode = .warmingUp ∧ t = warmUpTurn { s with elapsed := s.elapsed + dt }) ∨
    (s.mode = .ready ∧ readyTurn c { s with elapsed := s.elapsed + dt } = .next t) := by
  simp only [hostTurn] at h
  split at h
  · injection h with h
    exact .inl ⟨‹_›, h.symm⟩
  · exact .inr ⟨‹_›, h⟩

/-! ### STRICT and the host's durations never change (R14, R5) -/

/-- STRICT (R14) and the three durations of the host (R5). -/
def parameters (s : State) : Bool × Nat × Nat × Option Nat :=
  (s.strict, s.warmup, s.settleDelay, s.readTimeout)

theorem parameters_eq_iff (s t : State) : parameters t = parameters s ↔
    t.strict = s.strict ∧ t.warmup = s.warmup ∧ t.settleDelay = s.settleDelay ∧
      t.readTimeout = s.readTimeout := by
  simp [parameters]

theorem exec_parameters {i : Instr} {s t : State} (h : exec i s = .next t) :
    parameters t = parameters s := by
  obtain ⟨hstrict, _, _, _, _, _, _, hwarmup, hsettle, htimeout⟩ := exec_sameHost h
  exact (parameters_eq_iff s t).mpr ⟨hstrict, hwarmup, hsettle, htimeout⟩

theorem reservedWord_parameters (s : State) : parameters (reservedWord s) = parameters s := by
  rcases reservedWord_cases s with ⟨_, h⟩ | ⟨_, h⟩ <;> rw [h]
  rfl

theorem presentPins_parameters {rst cv : Bool} {w : CmdWord} {s t : State}
    (h : presentPins rst cv w s = .next t) : parameters t = parameters s := by
  rcases presentPins_cases h with ⟨_, rfl⟩ | ⟨_, _, rfl⟩ | ⟨_, _, _, rfl⟩ | ⟨_, _, i, _, hi⟩
  · rfl
  · rfl
  · exact reservedWord_parameters s
  · exact exec_parameters hi

theorem hostMove_parameters {s t : State} (h : HostMove s t) : parameters t = parameters s := by
  obtain ⟨p, r, rfl⟩ := h
  rfl

theorem readyMove_parameters {s t : State} (h : ReadyMove s t) : parameters t = parameters s := by
  obtain ⟨bs, u, hu, hmove⟩ := h
  have hut : parameters u = parameters { s with rx := bs } := by
    rcases hu with rfl | ⟨i, hi⟩
    · rfl
    · exact exec_parameters hi
  exact (hostMove_parameters hmove).trans hut

theorem warmUpTurn_parameters (s : State) : parameters (warmUpTurn s) = parameters s := by
  unfold warmUpTurn
  split <;> rfl

theorem hostTurn_parameters {dt : Nat} {c : Bool} {s t : State} (h : hostTurn dt c s = .next t) :
    parameters t = parameters s := by
  rcases hostTurn_cases h with ⟨_, rfl⟩ | ⟨_, hready⟩
  · exact warmUpTurn_parameters { s with elapsed := s.elapsed + dt }
  · exact readyMove_parameters (s := { s with elapsed := s.elapsed + dt })
      (readyTurn_readyMove hready)

theorem runEvent_parameters {e : Event} {s t : State} (h : runEvent e s = .next t) :
    parameters t = parameters s := by
  cases e with
  | pins rst cv w => exact presentPins_parameters h
  | frame F =>
    have hpushes : exec (.responseFrame (frameOfWord F)) s = .next t :=
      (presentFrame_eq F s).symm.trans h
    exact exec_parameters hpushes
  | transmit => exact exec_parameters (i := .commandFrame) h
  | serial b =>
    injection h with h
    exact h ▸ rfl
  | turn dt c => exact hostTurn_parameters h

theorem step_parameters {s t : State} (h : step s = .next t) : parameters t = parameters s := by
  cases hin : s.inputs with
  | nil =>
    injection (step_nil hin).symm.trans h with h
    exact h ▸ rfl
  | cons e es =>
    exact runEvent_parameters (s := { s with inputs := es }) ((step_cons hin).symm.trans h)

/-- Settles O32: no instruction, no reset and no move of the host writes a parameter. -/
theorem parametersNeverChange : Obligations.ParametersNeverChange :=
  fun s t h => (parameters_eq_iff s t).mp (step_parameters h)

/-! ### The registers after reset and CLR (R16) -/

/-- The values of R16: the flags and counts 0, and no byte of BUF, CSUM or PPM present. -/
def HoldsResetValues (s : State) : Prop :=
  s.fill = 0#4 ∧ s.vd = false ∧ s.csok = false ∧ s.pv = false ∧ s.err.code = 0 ∧
    (∀ a, Memory.read s.buf a = none ∧ bufRead s a = none) ∧ s.csum = none ∧ s.ppm = none

theorem holdsResetValues_of_parserClear {s : State} (h : parserClear s) : HoldsResetValues s := by
  obtain ⟨hbuf, hfill, hvd, hcsum, hcsok, hppm, hpv, herr⟩ := h
  have hread : ∀ a, Memory.read s.buf a = none := fun a => by rw [hbuf]; rfl
  have hbufRead : ∀ a, bufRead s a = none := fun a => by simp [bufRead, hread]
  exact ⟨hfill, hvd, hcsok, hpv, by rw [herr]; rfl, fun a => ⟨hread a, hbufRead a⟩, hcsum, hppm⟩

theorem resetParser_parserClear (s : State) : parserClear (resetParser s) :=
  ⟨rfl, rfl, rfl, rfl, rfl, rfl, rfl, rfl⟩

/-- `rst` = 1 resets the parser whatever `cmd_valid` and `cmd` are (R74, R85). -/
theorem step_of_rst {s : State} {es : List Event} {cv : Bool} {w : CmdWord}
    (h : s.inputs = .pins true cv w :: es) :
    step s = .next (resetParser { s with inputs := es }) :=
  step_cons h

/-- Settles O8: the reset state is a clear parser, and CLR and `rst` both are `resetParser`. -/
theorem resetAndClrValues : Obligations.ResetAndClrValues := by
  have hclear (s : State) : HoldsResetValues (resetParser s) :=
    holdsResetValues_of_parserClear (resetParser_parserClear s)
  refine ⟨?reset, ?clr, ?rst⟩
  case reset => exact holdsResetValues_of_parserClear (sameParser_refl State.reset)
  case clr => exact fun s => ⟨resetParser s, execClr_eq s, hclear s, rfl⟩
  case rst => exact fun s es cv w h => ⟨_, step_of_rst h, hclear _, rfl⟩

end Sys2Proof.Machine

/-!
The encodings' family (spec/30_encoding.md): which command words are defined and what a reserved one
does, the words of a program and their run as instructions, the two frames, and POLL.
-/

namespace Sys2Proof.Machine

/-! ### OP and DATA of a command word (R35) -/

theorem cmdWordOf_toNat (op : BitVec 3) (d : Byte) :
    (cmdWordOf op d).toNat = op.toNat * 256 + d.toNat := by
  have hor := Nat.shiftLeft_add_eq_or_of_lt d.isLt op.toNat
  simp only [cmdWordOf, BitVec.toNat_or, BitVec.toNat_shiftLeft, BitVec.toNat_setWidth]
  rw [Nat.mod_eq_of_lt (by omega : d.toNat < 2 ^ 11),
    Nat.mod_eq_of_lt (by omega : op.toNat < 2 ^ 11),
    Nat.mod_eq_of_lt (by omega : op.toNat <<< 8 < 2 ^ 11), ← hor]
  omega

/-- A word is `{OP, DATA}` in one way. -/
theorem eq_cmdWordOf_iff (w : CmdWord) (op : BitVec 3) (d : Byte) :
    w = cmdWordOf op d ↔ cmdOp w = op ∧ cmdData w = d := by
  have hw := cmdWordOf_toNat op d
  have hop : (cmdOp w).toNat = w.toNat / 256 % 8 := by
    simp [cmdOp, BitVec.extractLsb'_toNat, Nat.shiftRight_eq_div_pow]
  have hdata : (cmdData w).toNat = w.toNat % 256 := by
    simp [cmdData, BitVec.extractLsb'_toNat]
  rw [← BitVec.toNat_inj, ← BitVec.toNat_inj, ← BitVec.toNat_inj, hw, hop, hdata]
  omega

theorem selects_all_iff (p w : CmdWord) : selects 0x7FF p w = true ↔ w = p := by
  have hmask : w &&& 0x7FF#11 = w := BitVec.and_allOnes
  simp [selects, hmask]

/-- The mask of PUSH keeps OP and clears DATA. -/
theorem and_opMask (w : CmdWord) : w &&& 0x700 = cmdWordOf (cmdOp w) 0x00 := by
  apply BitVec.eq_of_getLsbD_eq
  intro i hi
  interval_cases i <;> simp [cmdWordOf, cmdOp]

theorem selects_push_iff (w : CmdWord) : selects 0x700 0x200 w = true ↔ cmdOp w = 0b010 := by
  have hpush : (0x200 : CmdWord) = cmdWordOf 0b010 0x00 := by decide
  obtain ⟨hop, hdata⟩ := (eq_cmdWordOf_iff _ (cmdOp w) 0x00).mp rfl
  rw [selects, beq_iff_eq, and_opMask, hpush, eq_cmdWordOf_iff, hop]
  exact and_iff_left hdata

theorem selects_word_iff (op : BitVec 3) (w : CmdWord) :
    selects 0x7FF (cmdWordOf op 0x00) w = true ↔ cmdOp w = op ∧ cmdData w = 0x00 :=
  (selects_all_iff _ w).trans (eq_cmdWordOf_iff w op 0x00)

/-- The rows of R35 and the reserved words of R36, read by OP and DATA. -/
theorem decode_cmd_eq (w : CmdWord) :
    decode (.cmd w) =
      if cmdOp w = 0b001 ∧ cmdData w = 0x00 then .ok .clr
      else if cmdOp w = 0b010 then .ok (.push (cmdData w))
      else if cmdOp w = 0b011 ∧ cmdData w = 0x00 then .ok .val
      else if cmdOp w = 0b100 ∧ cmdData w = 0x00 then .ok .dec
      else if cmdOp w = 0b001 ∨ cmdOp w = 0b011 ∨ cmdOp w = 0b100 then .error (.reservedData w)
      else .error (.reservedOp (cmdOp w)) := by
  have hclr : (0x100 : CmdWord) = cmdWordOf 0b001 0x00 := by decide
  have hval : (0x300 : CmdWord) = cmdWordOf 0b011 0x00 := by decide
  have hdec : (0x400 : CmdWord) = cmdWordOf 0b100 0x00 := by decide
  simp only [decode, decodeCmd, hclr, hval, hdec, selects_word_iff, selects_push_iff]

/-- Of the eight values of OP four are reserved, and three of the others ask for DATA 0x00 (R36). -/
theorem decode_cmd_error_iff (w : CmdWord) :
    (∃ e, decode (.cmd w) = .error e) ↔
      cmdOp w ∈ [0b000, 0b101, 0b110, 0b111] ∨
        (cmdOp w ∈ [0b001, 0b011, 0b100] ∧ cmdData w ≠ 0x00) := by
  rw [decode_cmd_eq]
  split_ifs with hclr hpush hval hdec hop
  · simp [hclr]
  · simp [hpush]
  · simp [hval]
  · simp [hdec]
  · have hdata : cmdData w ≠ 0x00 := by tauto
    exact iff_of_true ⟨_, rfl⟩ (.inr ⟨by simpa using hop, hdata⟩)
  · have hrest : cmdOp w = 0 ∨ cmdOp w = 5 ∨ cmdOp w = 6 ∨ cmdOp w = 7 := by bv_omega
    exact iff_of_true ⟨_, rfl⟩ (.inl (by simpa using hrest))

/-! ### A reserved word on the port (R36, R72) -/

theorem presentWord_of_error {w : CmdWord} {e : DecodeError} (h : decode (.cmd w) = .error e)
    (s : State) : presentWord w s = .next (reservedWord s) := by
  simp [presentWord, h]

theorem step_of_reserved {s : State} {es : List Event} {w : CmdWord} {e : DecodeError}
    (hs : s.inputs = .pins false true w :: es) (h : decode (.cmd w) = .error e) :
    step s = .next (reservedWord { s with inputs := es }) :=
  (step_cons hs).trans (presentWord_of_error h _)

/-! ### How many words are reserved (R36) -/

theorem count_defined :
    ((List.range 2048).countP fun n => (decode (.cmd (BitVec.ofNat 11 n))).toBool) = 259 := by
  decide +kernel

/-- The words that are not defined are the rest of the 2048. -/
theorem count_reserved :
    ((List.range 2048).countP fun n => !(decode (.cmd (BitVec.ofNat 11 n))).toBool) = 1789 := by
  have hsum := List.length_eq_countP_add_countP
    (fun n => (decode (.cmd (BitVec.ofNat 11 n))).toBool) (l := List.range 2048)
  rw [List.length_range, count_defined] at hsum
  simp only [Bool.not_eq_true, Bool.decide_eq_false] at hsum
  omega

theorem count_reservedOp :
    ((List.range 2048).countP fun n =>
      decide (cmdOp (BitVec.ofNat 11 n) ∈ [0b000, 0b101, 0b110, 0b111])) = 1024 := by
  decide +kernel

theorem count_reservedData :
    ((List.range 2048).countP fun n =>
      decide (cmdOp (BitVec.ofNat 11 n) ∈ [0b001, 0b011, 0b100] ∧
        cmdData (BitVec.ofNat 11 n) ≠ 0x00)) = 765 := by
  decide +kernel

/-- Settles O4: the decoder read by OP and DATA, and the raise of R72 for what it rejects. -/
theorem reservedWordsRaiseIllegal : Obligations.ReservedWordsRaiseIllegal := by
  refine ⟨decode_cmd_error_iff, count_reserved, count_defined, count_reservedOp,
    count_reservedData, ⟨_, rfl⟩, ?effect, ?malformedClr⟩
  case effect =>
    intro s es w e hs he
    rw [step_of_reserved hs he]
    rcases reservedWord_cases { s with inputs := es } with ⟨herr, hw⟩ | ⟨herr, hw⟩ <;> rw [hw]
    · exact ⟨fun h => absurd h herr, fun _ => rfl⟩
    · exact ⟨fun _ => rfl, fun h => absurd herr h⟩
  case malformedClr =>
    intro w hop hdata
    exact (decode_cmd_error_iff w).mpr (.inr ⟨by simp [hop], hdata⟩)

/-! ### The words of a program (R38, R39) -/

/-- PUSH's word written as its match plus the byte (R35). -/
theorem cmdWordOf_push (d : Byte) : cmdWordOf 0b010 d = 0x200 + d.setWidth 11 := by
  apply BitVec.eq_of_toNat_eq
  have hd : (0x200 + d.setWidth 11 : CmdWord).toNat = 512 + d.toNat := by bv_omega
  rw [cmdWordOf_toNat, hd]
  rfl

theorem wordOf_push (d : Byte) : wordOf (.push d) = some (0x200 + d.setWidth 11) :=
  congrArg some (cmdWordOf_push d)

theorem assemble_append (ls ms : List AsmLine) :
    assemble (ls ++ ms) = assemble ls ++ assemble ms := by
  simp [assemble]

theorem assemble_frame (bs : List Byte) :
    assemble [.frame bs] = bs.map fun b => 0x200 + b.setWidth 11 := by
  simp [assemble, AsmLine.expand, List.filterMap_map, wordOf_push]

/-- POLL is CLR, FRAME and PARSE (R39). -/
theorem assemble_poll (f : Frame) :
    assemble [.poll f] =
      assemble [.clr] ++ assemble [.frame (frameBytes f)] ++ assemble [.parse] := by
  rw [← assemble_append, ← assemble_append]
  simp [assemble, AsmLine.expand]

/-- Settles O36: the words follow from the encoder, PUSH's with its byte added. -/
theorem assemblerWords : Obligations.AssemblerWords := by
  refine ⟨?ops, fun f => assemble_frame (frameBytes f), rfl, fun f => ⟨assemble_poll f, rfl⟩⟩
  case ops =>
    intro d
    rw [← cmdWordOf_push]
    rfl

/-! ### A program of command words runs its instructions in order -/

theorem decode_push (d : Byte) : decode (.cmd (cmdWordOf 0b010 d)) = .ok (.push d) := by
  obtain ⟨hop, hdata⟩ := (eq_cmdWordOf_iff (cmdWordOf 0b010 d) 0b010 d).mp rfl
  rw [decode_cmd_eq, hop, hdata]
  rfl

/-- What a word of the command port decodes to is the instruction it was assembled from. -/
theorem decode_of_wordOf {i : Instr} {w : CmdWord} (h : wordOf i = some w) :
    decode (.cmd w) = .ok i := by
  cases i with
  | clr | val | dec =>
    injection h with h
    exact h ▸ rfl
  | push d =>
    injection h with h
    exact h ▸ decode_push d
  | responseFrame f => cases h
  | commandFrame => cases h

section Rest

variable (ws : List CmdWord) (s : State)

@[simp] theorem loadWords_fill : (loadWords ws s).fill = s.fill := rfl
@[simp] theorem loadWords_vd : (loadWords ws s).vd = s.vd := rfl
@[simp] theorem loadWords_csok : (loadWords ws s).csok = s.csok := rfl
@[simp] theorem loadWords_err : (loadWords ws s).err = s.err := rfl
@[simp] theorem loadWords_strict : (loadWords ws s).strict = s.strict := rfl
@[simp] theorem full_loadWords : full (loadWords ws s) = full s := rfl
@[simp] theorem bufRead_loadWords (a : Nat) : bufRead (loadWords ws s) a = bufRead s a := rfl
@[simp] theorem bufCksum_loadWords : bufCksum (loadWords ws s) = bufCksum s := rfl
@[simp] theorem bufConcentration_loadWords :
    bufConcentration (loadWords ws s) = bufConcentration s := rfl

theorem raise_loadWords (e : Err) : raise e (loadWords ws s) = loadWords ws (raise e s) := rfl
theorem storeByte_loadWords (d : Byte) :
    storeByte d (loadWords ws s) = loadWords ws (storeByte d s) := rfl
theorem recordChecksum_loadWords (c : Byte) (ok : Bool) :
    recordChecksum c ok (loadWords ws s) = loadWords ws (recordChecksum c ok s) := rfl
theorem recordPpm_loadWords (v : PpmWord) :
    recordPpm v (loadWords ws s) = loadWords ws (recordPpm v s) := rfl

theorem execPush_loadWords (d : Byte) :
    execPush d (loadWords ws s) = andThen (execPush d s) fun t => .next (loadWords ws t) := by
  by_cases he : s.err = .noError
  · by_cases hf : full s = true
    · simp [execPush, he, hf, raise_loadWords]
    · by_cases hr : s.fill.toNat < 9 <;> simp [execPush, he, hf, hr, storeByte_loadWords]
  · simp [execPush, he]

theorem pushAll_loadWords (bs : List Byte) :
    pushAll bs (loadWords ws s) = andThen (pushAll bs s) fun t => .next (loadWords ws t) := by
  induction bs generalizing s with
  | nil => rfl
  | cons b bs ih =>
    rw [pushAll, pushAll, execPush_loadWords]
    cases execPush b s <;> simp [ih]

theorem execVal_loadWords :
    execVal (loadWords ws s) = andThen (execVal s) fun t => .next (loadWords ws t) := by
  by_cases he : s.err = .noError
  · by_cases hf : full s = true
    · cases h0 : bufRead s Config.markerPos with
      | none => simp [execVal, he, hf, h0]
      | some b0 =>
        by_cases hm : b0 = Config.marker
        · cases hc : bufCksum s <;> cases h8 : bufRead s Config.ckPos <;>
            simp [execVal, he, hf, h0, hm, hc, h8, recordChecksum_loadWords]
        · simp [execVal, he, hf, h0, hm, raise_loadWords]
    · simp [execVal, he, hf, raise_loadWords]
  · simp [execVal, he]

theorem execDec_loadWords :
    execDec (loadWords ws s) = andThen (execDec s) fun t => .next (loadWords ws t) := by
  by_cases he : s.err = .noError
  · by_cases hf : full s = true
    · by_cases hv : s.vd = true
      · by_cases hc : s.csok = false ∧ s.strict = true
        · simp [execDec, he, hf, hv, hc, raise_loadWords]
        · cases hp : bufConcentration s <;>
            simp [execDec, he, hf, hv, hc, hp, recordPpm_loadWords]
      · simp [execDec, he, hf, hv, raise_loadWords]
    · simp [execDec, he, hf, raise_loadWords]
  · simp [execDec, he]

/-- The words still to be presented after an instruction are no operand of it (R27). -/
theorem exec_loadWords (i : Instr) :
    exec i (loadWords ws s) = andThen (exec i s) fun t => .next (loadWords ws t) := by
  cases i with
  | clr => rfl
  | push d => exact execPush_loadWords ws s d
  | val => exact execVal_loadWords ws s
  | dec => exact execDec_loadWords ws s
  | responseFrame f => exact pushAll_loadWords ws s (frameBytes f)
  | commandFrame => rfl

end Rest

/-- Instructions one after another, stopping at a fault or a refusal. -/
def execAll : List Instr → State → Result
  | [], s => .next s
  | i :: is, s => andThen (exec i s) (execAll is)

theorem execAll_append (is js : List Instr) (s : State) :
    execAll (is ++ js) s = andThen (execAll is s) (execAll js) := by
  induction is generalizing s with
  | nil => rfl
  | cons i is ih =>
    simp only [List.cons_append, execAll]
    cases exec i s <;> simp [ih]

theorem execAll_pushes (bs : List Byte) (s : State) :
    execAll (bs.map .push) s = pushAll bs s := by
  induction bs generalizing s with
  | nil => rfl
  | cons b bs ih => exact congrArg (andThen (execPush b s)) (funext ih)

/-- Every line of a program stands for operations of the command port (R38, R39). -/
theorem wordOf_isSome_of_mem_expand (l : AsmLine) : ∀ i ∈ l.expand, (wordOf i).isSome := by
  cases l <;> simp [AsmLine.expand, or_imp, forall_and, wordOf, encode]

/-- The words of operations, one a step, do what the operations do (R6). -/
theorem run_words {is : List Instr} (hw : ∀ i ∈ is, (wordOf i).isSome) (s : State) :
    runSteps is.length (loadWords (is.filterMap wordOf) s) = execAll is s := by
  induction is generalizing s with
  | nil => rfl
  | cons i is ih =>
    obtain ⟨hi, his⟩ := List.forall_mem_cons.mp hw
    obtain ⟨w, hiw⟩ := Option.isSome_iff_exists.mp hi
    rw [List.length_cons, run_succ, List.filterMap_cons_some hiw,
      step_loadWords_cons (decode_of_wordOf hiw), exec_loadWords, execAll]
    cases exec i s with
    | next t => exact ih his t
    | fault r => rfl
    | refused r => rfl

/-- A program assembled and run, one word a step, does what its lines stand for. -/
theorem run_assemble (ls : List AsmLine) (s : State) :
    runSteps (ls.flatMap AsmLine.expand).length (loadWords (assemble ls) s) =
      execAll (ls.flatMap AsmLine.expand) s := by
  refine run_words (fun i hi => ?_) s
  obtain ⟨l, _, hl⟩ := List.mem_flatMap.mp hi
  exact wordOf_isSome_of_mem_expand l i hl

/-- Settles O20: the nine words of FRAME do what nine PUSHes in one step do. -/
theorem frameIsNinePushSteps : Obligations.FrameIsNinePushSteps := by
  intro f s
  calc runSteps 9 (loadWords (assemble [.frame (frameBytes f)]) s)
      = execAll ((frameBytes f).map .push) s := run_assemble [.frame (frameBytes f)] s
    _ = exec (.responseFrame f) s := execAll_pushes (frameBytes f) s

/-! ### A Response Frame on the buffer (R31, R41) -/

/-- The byte after a full buffer raises E_OVERRUN, and the bytes after it are ignored. -/
theorem pushAll_of_full {s : State} (he : s.err = .noError) (hf : s.fill = 9#4) (b : Byte)
    (bs : List Byte) : pushAll (b :: bs) s = .next (raise .overrun s) := by
  have hraised : (raise .overrun s).err ≠ .noError := by simp
  rw [pushAll, execPush_of_full he hf, andThen_next, pushAll_of_err hraised]

/-- A frame on an empty buffer: byte i at offset i, and nothing else but FILL changes. -/
theorem execResponseFrame_of_empty (f : Frame) {s : State} (he : s.err = .noError)
    (hf : s.fill = 0#4) :
    ∃ t, exec (.responseFrame f) s = .next t ∧ t.fill = 9#4 ∧
      (∀ a, a < 9 → bufRead t a = (frameBytes f)[a]?) ∧
      (∀ a, 9 ≤ a → Memory.read t.buf a = Memory.read s.buf a) ∧
      t.vd = s.vd ∧ t.csum = s.csum ∧ t.csok = s.csok ∧ t.ppm = s.ppm ∧ t.pv = s.pv ∧
      t.err = s.err ∧ sameOutside s t := by
  have hzero : s.fill.toNat = 0 := by rw [hf]; rfl
  obtain ⟨t, hexec, hfill, _, hstored, hpast, hrest⟩ :=
    pushAll_of_room (frameBytes f) s he (by simp [hzero, frameBytes_length])
  simp only [hzero, frameBytes_length] at hfill hstored hpast
  exact ⟨t, hexec, (fill_eq_nine_iff t).mpr hfill, fun a ha => hstored a (Nat.zero_le a) ha,
    fun a ha => hpast a (.inr ha), hrest⟩

/-- A frame on a buffer with bytes in it: as many of its bytes as fit are stored, and the next one
raises E_OVERRUN. -/
theorem execResponseFrame_of_started (f : Frame) {s : State} (he : s.err = .noError)
    (hpos : 0 < s.fill.toNat) (hle : s.fill.toNat ≤ 9) :
    ∃ t, exec (.responseFrame f) s = .next t ∧ t.fill = 9#4 ∧ t.err = .overrun ∧ t.pv = false ∧
      t.ppm = none ∧
      (∀ a, a < s.fill.toNat → bufRead t a = bufRead s a) ∧
      (∀ a, s.fill.toNat ≤ a → a < 9 → bufRead t a = (frameBytes f)[a - s.fill.toNat]?) ∧
      (∀ a, a < s.fill.toNat ∨ 9 ≤ a → Memory.read t.buf a = Memory.read s.buf a) ∧
      t.vd = s.vd ∧ t.csum = s.csum ∧ t.csok = s.csok ∧ sameOutside s t := by
  have hlen := frameBytes_length f
  have hroom : s.fill.toNat + ((frameBytes f).take (9 - s.fill.toNat)).length = 9 := by
    rw [List.length_take]
    omega
  obtain ⟨u, hpush, hfill, hkept, hstored, hpast, hvd, hcsum, hcsok, _, _, herr, hout⟩ :=
    pushAll_of_room ((frameBytes f).take (9 - s.fill.toNat)) s he hroom.le
  rw [hroom] at hfill hstored
  have hfull : u.fill = 9#4 := (fill_eq_nine_iff u).mpr hfill
  have hexec : exec (.responseFrame f) s = .next (raise .overrun u) := by
    calc exec (.responseFrame f) s
        = pushAll ((frameBytes f).take (9 - s.fill.toNat) ++
            (frameBytes f).drop (9 - s.fill.toNat)) s := by rw [List.take_append_drop]; rfl
      _ = pushAll ((frameBytes f).drop (9 - s.fill.toNat)) u := by
          rw [pushAll_append, hpush, andThen_next]
      _ = .next (raise .overrun u) := by
          rw [List.drop_eq_getElem_cons (by omega), pushAll_of_full (herr.trans he) hfull]
  refine ⟨raise .overrun u, hexec, hfull, rfl, rfl, rfl, hkept, fun a hge hlt => ?_, hpast, hvd,
    hcsum, hcsok, hout⟩
  rw [bufRead_raise, hstored a hge hlt, List.getElem?_take_of_lt (by omega)]

/-- Settles O19: the chain of PUSHes where it fits, and cut where the buffer is full. -/
theorem responseFrameFillsBuffer : Obligations.ResponseFrameFillsBuffer :=
  ⟨fun f _ he hf => execResponseFrame_of_empty f he hf,
    fun f _ he hpos hle => execResponseFrame_of_started f he hpos hle,
    fun f _ he => pushAll_of_err he (frameBytes f)⟩

/-! ### VAL and DEC case by case (R45, R50) -/

theorem execVal_of_err {s : State} (h : s.err ≠ .noError) : execVal s = .next s := by
  simp [execVal, h]

theorem execVal_of_wrongMarker {s : State} {b0 : Byte} (he : s.err = .noError) (hf : s.fill = 9#4)
    (h0 : bufRead s 0 = some b0) (hm : b0 ≠ Config.marker) :
    execVal s = .next (raise .marker s) := by
  simp [execVal, he, (full_iff s).mpr hf, h0, hm]

theorem execVal_of_marker {s : State} {c b8 : Byte} (he : s.err = .noError) (hf : s.fill = 9#4)
    (h0 : bufRead s 0 = some Config.marker) (hc : bufCksum s = some c)
    (h8 : bufRead s 8 = some b8) :
    execVal s = .next (recordChecksum c (checksumOk c b8) s) := by
  simp [execVal, he, (full_iff s).mpr hf, h0, hc, h8]

theorem execDec_of_err {s : State} (h : s.err ≠ .noError) : execDec s = .next s := by
  simp [execDec, h]

theorem execDec_of_mismatch {s : State} (he : s.err = .noError) (hf : s.fill = 9#4)
    (hv : s.vd = true) (hc : s.csok = false) (hs : s.strict = true) :
    execDec s = .next (raise .checksum s) := by
  simp [execDec, he, (full_iff s).mpr hf, hv, hc, hs]

theorem execDec_of_accepted {s : State} {v : PpmWord} (he : s.err = .noError) (hf : s.fill = 9#4)
    (hv : s.vd = true) (hc : s.strict = true → s.csok = true) (hp : bufConcentration s = some v) :
    execDec s = .next (recordPpm v s) := by
  have hpass : ¬ (s.csok = false ∧ s.strict = true) := fun ⟨hbad, hs⟩ => by simp [hc hs] at hbad
  simp [execDec, he, (full_iff s).mpr hf, hv, hpass, hp]

/-! ### A frame presented whole (R37, R92) -/

/-- The decoder refuses a received frame for its marker only. -/
theorem b0_ne_marker_of_error {F : FrameWord} {e : DecodeError} (h : decode (.rx F) = .error e) :
    (frameOfWord F).b0 ≠ Config.marker := by
  intro hm
  simp [decode, decodeRx, hm] at h

theorem step_of_frame {s : State} {es : List Event} {F : FrameWord}
    (hs : s.inputs = .frame F :: es) :
    step s = exec (.responseFrame (frameOfWord F)) { s with inputs := es } :=
  (step_cons hs).trans (presentFrame_eq F _)

/-- Settles O46: the frame's bytes are pushed unseen, and VAL finds byte 0 at offset 0. -/
theorem frameEventPushesNineBytes : Obligations.FrameEventPushesNineBytes := by
  refine ⟨fun s es F hs => step_of_frame hs, ?wrongMarker⟩
  case wrongMarker =>
    intro s es F e hs hdecode he hf
    obtain ⟨t, hexec, hfill, hbytes, _, _, _, _, _, _, herr, _⟩ :=
      execResponseFrame_of_empty (frameOfWord F) (s := { s with inputs := es }) he hf
    exact ⟨t, (step_of_frame hs).trans hexec, hfill, hbytes,
      execVal_of_wrongMarker (herr.trans he) hfill (hbytes 0 (by decide))
        (b0_ne_marker_of_error hdecode)⟩

/-! ### POLL (R33, R39) -/

/-- The parser with a frame in its buffer and nothing else, as CLR and FRAME leave it. -/
def withFrame (f : Frame) (s : State) : State :=
  { resetParser s with
    buf := [(0, f.b0), (1, f.b1), (2, f.b2), (3, f.b3), (4, f.b4), (5, f.b5), (6, f.b6),
      (7, f.b7), (8, f.b8)]
    fill := 9#4 }

/-- Where the buffer lists only offsets below FILL, bytes that fit are listed after them. -/
theorem pushAll_of_listed (bs : List Byte) : ∀ s : State, s.err = .noError →
    (∀ c ∈ s.buf, c.1 < s.fill.toNat) → s.fill.toNat + bs.length ≤ 9 →
    pushAll bs s = .next { s with
      buf := s.buf ++ (bs.zipIdx s.fill.toNat).map Prod.swap
      fill := s.fill + BitVec.ofNat 4 bs.length } := by
  induction bs with
  | nil =>
    intro s _ _ _
    simp [pushAll]
  | cons b bs ih =>
    intro s he hbelow hle
    rw [List.length_cons] at hle
    have hroom : s.fill.toNat < 9 := by omega
    have hfill := storeByte_fill_toNat b hroom
    have hbuf : (storeByte b s).buf = s.buf ++ [(s.fill.toNat, b)] := Memory.write_past hbelow
    have hbelow' : ∀ c ∈ (storeByte b s).buf, c.1 < (storeByte b s).fill.toNat := by
      intro c hc
      rw [hfill]
      rw [hbuf, List.mem_append, List.mem_singleton] at hc
      rcases hc with hc | rfl
      · exact Nat.lt_succ_of_lt (hbelow c hc)
      · exact Nat.lt_succ_self _
    have hcount : s.fill + 1 + BitVec.ofNat 4 bs.length =
        s.fill + BitVec.ofNat 4 (bs.length + 1) := by
      bv_omega
    rw [pushAll, execPush_of_room he hroom, andThen_next, ih (storeByte b s) he hbelow' (by omega),
      hbuf, hfill, storeByte_fill, hcount]
    simp [storeByte]

theorem pushAll_resetParser (f : Frame) (s : State) :
    pushAll (frameBytes f) (resetParser s) = .next (withFrame f s) :=
  pushAll_of_listed (frameBytes f) (resetParser s) rfl (by simp) (by simp [frameBytes_length])

theorem andThen_next_right (o : Result) : andThen o .next = o := by
  cases o <;> rfl

/-- POLL is one instruction after another on the frame in the buffer. -/
theorem run_poll (f : Frame) (s : State) :
    runSteps 12 (loadWords (assemble [.poll f]) s) =
      andThen (execVal (withFrame f s)) execDec := by
  have hrun : runSteps 12 (loadWords (assemble [.poll f]) s) =
      execAll (.clr :: (frameBytes f).map .push ++ [.val, .dec]) s := run_assemble [.poll f] s
  have hframe : execAll ((frameBytes f).map .push) (resetParser s) = .next (withFrame f s) :=
    (execAll_pushes _ _).trans (pushAll_resetParser f s)
  have hclr : exec .clr s = .next (resetParser s) := execClr_eq s
  rw [hrun, List.cons_append, execAll, hclr, andThen_next, execAll_append, hframe, andThen_next]
  exact congrArg (andThen (execVal (withFrame f s))) (funext fun t => andThen_next_right (execDec t))

theorem execVal_withFrame {f : Frame} (hm : f.b0 = Config.marker) (s : State) :
    execVal (withFrame f s) = .next
      (recordChecksum (frameCksum f) (checksumOk (frameCksum f) f.b8) (withFrame f s)) :=
  execVal_of_marker rfl rfl (congrArg some hm) rfl rfl

theorem execVal_withFrame_of_invalid {f : Frame} (hm : f.b0 ≠ Config.marker) (s : State) :
    execVal (withFrame f s) = .next (raise .marker (withFrame f s)) :=
  execVal_of_wrongMarker rfl rfl rfl hm

/-- DEC of a frame whose marker is right: the reading, unless STRICT and a mismatch forbid it. -/
theorem execDec_withFrame {f : Frame} {c : Byte} {ok : Bool} {s : State}
    (h : s.strict = true → ok = true) :
    execDec (recordChecksum c ok (withFrame f s)) =
      .next (recordPpm (concentration f.b2 f.b3) (recordChecksum c ok (withFrame f s))) :=
  execDec_of_accepted rfl rfl rfl h rfl

theorem execDec_withFrame_of_mismatch {f : Frame} {c : Byte} {s : State} (hs : s.strict = true) :
    execDec (recordChecksum c false (withFrame f s)) =
      .next (raise .checksum (recordChecksum c false (withFrame f s))) :=
  execDec_of_mismatch rfl rfl rfl rfl hs

/-- The three classes, each by the marker and the checksum that give it (R33). -/
theorem classify_cases (f : Frame) :
    (classify f = .invalid ∧ f.b0 ≠ Config.marker) ∨
    (classify f = .checksumGood ∧ f.b0 = Config.marker ∧
      checksumOk (frameCksum f) f.b8 = true) ∨
    (classify f = .checksumBad ∧ f.b0 = Config.marker ∧
      checksumOk (frameCksum f) f.b8 = false) := by
  unfold classify
  split_ifs with hm hok
  · exact .inl ⟨rfl, hm⟩
  · exact .inr (.inl ⟨rfl, not_not.mp hm, hok⟩)
  · exact .inr (.inr ⟨rfl, not_not.mp hm, Bool.eq_false_of_not_eq_true hok⟩)

/-- Settles O33: VAL and DEC on the frame in the buffer, by the frame's class and STRICT. -/
theorem pollClassifiesFrame : Obligations.PollClassifiesFrame := by
  intro f s frame checked v
  refine (run_poll f s).trans ?_
  rcases classify_cases f with ⟨hclass, hm⟩ | ⟨hclass, hm, hok⟩ | ⟨hclass, hm, hok⟩
  · rw [execVal_withFrame_of_invalid hm, andThen_next, hclass]
    exact execDec_of_err (by simp)
  · rw [execVal_withFrame hm, andThen_next, hclass, hok]
    exact execDec_withFrame fun _ => rfl
  · rw [execVal_withFrame hm, andThen_next, hclass, hok]
    split
    next hbad => cases hbad
    next hgood => cases hgood
    next hs => exact execDec_withFrame (by simp [hs])
    next hs => exact execDec_withFrame_of_mismatch hs

/-! ### The Command Frame (R32, R55) -/

/-- Settles O21: the transmitter appends its nine bytes and writes nothing else. -/
theorem commandFrameTransmits : Obligations.CommandFrameTransmits :=
  ⟨execCommandFrame_eq, by decide⟩

end Sys2Proof.Machine

/-!
The reception's family (spec/40_frame_reception.md): CLR as the reset of the parser, PUSH case by
case, and no retention across CLR: words answer in every state whose buffer lists what FILL counts,
and their effect on the parser does not depend on what is outside it.
-/

namespace Sys2Proof.Machine

/-! ### CLR (R40, R75, R85) -/

theorem resetParser_sameOutside (s : State) : sameOutside s (resetParser s) :=
  ⟨rfl, rfl, rfl, rfl, rfl, rfl, rfl, rfl, rfl, rfl, rfl⟩

theorem resetParser_of_parserClear {s : State} (h : parserClear s) : resetParser s = s := by
  obtain ⟨hbuf, hfill, hvd, hcsum, hcsok, hppm, hpv, herr⟩ := h
  cases s
  simp_all [resetParser, State.reset]

/-- Settles O9: CLR is `resetParser`, and so is a step with `rst` = 1. -/
theorem clrIsReset : Obligations.ClrIsReset := by
  refine ⟨?completes, ?onClear, ?rst⟩
  case completes =>
    exact fun s =>
      ⟨resetParser s, execClr_eq s, resetParser_parserClear s, resetParser_sameOutside s⟩
  case onClear =>
    exact fun s h => (execClr_eq s).trans (congrArg _ (resetParser_of_parserClear h))
  case rst => exact fun s es cv w h => step_of_rst h

/-! ### PUSH (R41) -/

/-- FULL becomes 1 exactly at the ninth byte (R13). -/
theorem full_storeByte_iff {s : State} (d : Byte) (h : s.fill.toNat < 9) :
    full (storeByte d s) = true ↔ s.fill = 8#4 := by
  have height : s.fill = 8#4 ↔ s.fill.toNat = 8 := BitVec.toNat_inj.symm
  rw [full_iff, fill_eq_nine_iff, storeByte_fill_toNat d h, height]
  omega

/-- Settles O15: the three answers of PUSH, and the buffer's reads after the byte is stored. -/
theorem pushMeaning : Obligations.PushMeaning := by
  refine ⟨?word, fun d s he => execPush_of_err he, fun d s he hf => execPush_of_full he hf, ?room⟩
  case word => exact fun d => cmdWordOf_push d ▸ decode_push d
  case room =>
    intro d s he hf
    exact ⟨storeByte d s, execPush_of_room he hf, storeByte_fill_toNat d hf,
      full_storeByte_iff d hf, bufRead_storeByte_same d hf,
      fun a ha => bufRead_storeByte_other d hf ha,
      fun a ha => Memory.read_write_other s.buf _ a d ha,
      rfl, rfl, rfl, rfl, rfl, rfl, ⟨rfl, rfl, rfl, rfl, rfl, rfl, rfl, rfl, rfl, rfl, rfl⟩⟩

/-! ### The buffer lists the offsets below FILL (R15, R24) -/

theorem bufHoldsFill_congr {s t : State} (hb : t.buf = s.buf) (hf : t.fill = s.fill)
    (hs : BufHoldsFill s) : BufHoldsFill t := by
  rwa [BufHoldsFill, hb, hf]

/-- A byte stored at offset FILL extends the listed offsets by that one. -/
theorem storeByte_bufHoldsFill {s : State} (d : Byte) (hroom : s.fill.toNat < 9)
    (hs : BufHoldsFill s) : BufHoldsFill (storeByte d s) := by
  have hbelow : ∀ c ∈ s.buf, c.1 < s.fill.toNat := fun c hc =>
    List.mem_range.mp (hs ▸ List.mem_map_of_mem hc)
  rw [BufHoldsFill, storeByte_fill_toNat d hroom, storeByte_buf, Memory.write_past hbelow,
    List.map_append, hs, List.range_succ]
  rfl

theorem execPush_bufHoldsFill (d : Byte) (s t : State) (hs : BufHoldsFill s)
    (h : execPush d s = .next t) : BufHoldsFill t := by
  rcases execPush_cases h with ⟨_, rfl⟩ | ⟨_, _, rfl⟩ | ⟨_, hroom, rfl⟩
  case inl => exact hs
  case inr.inl => exact hs
  case inr.inr => exact storeByte_bufHoldsFill d hroom hs

theorem execVal_buf {s t : State} (h : execVal s = .next t) : t.buf = s.buf := by
  rcases execVal_cases h with ⟨_, rfl⟩ | ⟨_, _, rfl⟩ | ⟨_, _, _, rfl⟩ | ⟨_, _, _, _, _, _, _, rfl⟩ <;>
    rfl

theorem execDec_buf {s t : State} (h : execDec s = .next t) : t.buf = s.buf := by
  rcases execDec_cases h with ⟨_, rfl⟩ | ⟨_, _, rfl⟩ | ⟨_, _, _, rfl⟩ | ⟨_, _, _, _, _, rfl⟩ |
    ⟨_, _, _, _, _, _, rfl⟩ <;> rfl

theorem reservedWord_buf (s : State) : (reservedWord s).buf = s.buf := by
  rcases reservedWord_cases s with ⟨_, h⟩ | ⟨_, h⟩ <;> rw [h]
  rfl

/-- Only PUSH writes the buffer, at offset FILL; reset and CLR empty it. -/
theorem bufHoldsFill_partsKeep : PartsKeep BufHoldsFill where
  outside s t hparser _ hs := by
    obtain ⟨hbuf, hfill, _⟩ := hparser
    exact bufHoldsFill_congr hbuf hfill hs
  reset s _ := rfl
  push := execPush_bufHoldsFill
  val s t hs h := bufHoldsFill_congr (execVal_buf h) (execVal_fill h) hs
  dec s t hs h := bufHoldsFill_congr (execDec_buf h) (execDec_fill h) hs
  reserved s hs := bufHoldsFill_congr (reservedWord_buf s) (reservedWord_fill s) hs

/-! ### The operations answer where the buffer lists what FILL counts (R82) -/

theorem execVal_of_short {s : State} (he : s.err = .noError) (hf : s.fill ≠ 9#4) :
    execVal s = .next (raise .short s) := by
  simp [execVal, he, mt (full_iff s).mp hf]

theorem execDec_of_short {s : State} (he : s.err = .noError) (hf : s.fill ≠ 9#4) :
    execDec s = .next (raise .short s) := by
  simp [execDec, he, mt (full_iff s).mp hf]

theorem execDec_of_order {s : State} (he : s.err = .noError) (hf : s.fill = 9#4)
    (hv : s.vd = false) : execDec s = .next (raise .order s) := by
  simp [execDec, he, (full_iff s).mpr hf, hv]

theorem bufRead_of_full {s : State} (hs : BufHoldsFill s) (hf : s.fill = 9#4) {a : Nat}
    (ha : a < 9) : ∃ b, bufRead s a = some b :=
  bufRead_of_listed hs (by rwa [(fill_eq_nine_iff s).mp hf])

theorem bufCksum_of_full {s : State} (hs : BufHoldsFill s) (hf : s.fill = 9#4) :
    ∃ c, bufCksum s = some c := by
  obtain ⟨b1, h1⟩ := bufRead_of_full hs hf (a := 1) (by decide)
  obtain ⟨b2, h2⟩ := bufRead_of_full hs hf (a := 2) (by decide)
  obtain ⟨b3, h3⟩ := bufRead_of_full hs hf (a := 3) (by decide)
  obtain ⟨b4, h4⟩ := bufRead_of_full hs hf (a := 4) (by decide)
  obtain ⟨b5, h5⟩ := bufRead_of_full hs hf (a := 5) (by decide)
  obtain ⟨b6, h6⟩ := bufRead_of_full hs hf (a := 6) (by decide)
  obtain ⟨b7, h7⟩ := bufRead_of_full hs hf (a := 7) (by decide)
  exact ⟨cksum b1 b2 b3 b4 b5 b6 b7, by simp [bufCksum, h1, h2, h3, h4, h5, h6, h7]⟩

theorem bufConcentration_of_full {s : State} (hs : BufHoldsFill s) (hf : s.fill = 9#4) :
    ∃ v, bufConcentration s = some v := by
  obtain ⟨hi, hhi⟩ := bufRead_of_full hs hf (a := Config.hiPos) (by decide)
  obtain ⟨lo, hlo⟩ := bufRead_of_full hs hf (a := Config.loPos) (by decide)
  exact ⟨concentration hi lo, by simp [bufConcentration, hhi, hlo]⟩

theorem execPush_total (d : Byte) {s : State} (hs : FillInRange s) :
    ∃ t, execPush d s = .next t := by
  by_cases he : s.err = .noError
  · by_cases hf : s.fill = 9#4
    · exact ⟨_, execPush_of_full he hf⟩
    · exact ⟨_, execPush_of_room he (Nat.lt_of_le_of_ne hs (hf ∘ (fill_eq_nine_iff s).mpr))⟩
  · exact ⟨_, execPush_of_err he⟩

theorem execVal_total {s : State} (hs : BufHoldsFill s) : ∃ t, execVal s = .next t := by
  by_cases he : s.err = .noError
  · by_cases hf : s.fill = 9#4
    · obtain ⟨b0, h0⟩ := bufRead_of_full hs hf (a := 0) (by decide)
      by_cases hm : b0 = Config.marker
      · obtain ⟨c, hc⟩ := bufCksum_of_full hs hf
        obtain ⟨b8, h8⟩ := bufRead_of_full hs hf (a := 8) (by decide)
        exact ⟨_, execVal_of_marker he hf (hm ▸ h0) hc h8⟩
      · exact ⟨_, execVal_of_wrongMarker he hf h0 hm⟩
    · exact ⟨_, execVal_of_short he hf⟩
  · exact ⟨_, execVal_of_err he⟩

theorem execDec_total {s : State} (hs : BufHoldsFill s) : ∃ t, execDec s = .next t := by
  by_cases he : s.err = .noError
  · by_cases hf : s.fill = 9#4
    · cases hv : s.vd with
      | false => exact ⟨_, execDec_of_order he hf hv⟩
      | true =>
        by_cases hpass : s.strict = true → s.csok = true
        · obtain ⟨v, hp⟩ := bufConcentration_of_full hs hf
          exact ⟨_, execDec_of_accepted he hf hv hpass hp⟩
        · obtain ⟨hstrict, hcsok⟩ := Classical.not_imp.mp hpass
          exact ⟨_, execDec_of_mismatch he hf hv (Bool.eq_false_of_not_eq_true hcsok) hstrict⟩
    · exact ⟨_, execDec_of_short he hf⟩
  · exact ⟨_, execDec_of_err he⟩

/-! ### A command word, defined or reserved -/

/-- The command port gives the four operations and no frame (R35). -/
theorem decode_cmd_ok_cases {w : CmdWord} {i : Instr} (h : decode (.cmd w) = .ok i) :
    i = .clr ∨ (∃ d, i = .push d) ∨ i = .val ∨ i = .dec := by
  rw [decode_cmd_eq] at h
  split_ifs at h <;> injection h with h
  · exact .inl h.symm
  · exact .inr (.inl ⟨_, h.symm⟩)
  · exact .inr (.inr (.inl h.symm))
  · exact .inr (.inr (.inr h.symm))

/-- What presenting a word does, as one of the five things it can be (R36, R74). -/
theorem presentWord_cases (w : CmdWord) :
    presentWord w = execClr ∨ (∃ d, presentWord w = execPush d) ∨ presentWord w = execVal ∨
      presentWord w = execDec ∨ presentWord w = fun s => .next (reservedWord s) := by
  cases h : decode (.cmd w) with
  | error e => exact .inr (.inr (.inr (.inr (funext (presentWord_of_error h)))))
  | ok i =>
    have hexec : presentWord w = exec i := funext fun s => by simp [presentWord, h]
    rw [hexec]
    rcases decode_cmd_ok_cases h with rfl | ⟨d, rfl⟩ | rfl | rfl
    · exact .inl rfl
    · exact .inr (.inl ⟨d, rfl⟩)
    · exact .inr (.inr (.inl rfl))
    · exact .inr (.inr (.inr (.inl rfl)))

theorem presentWord_total (w : CmdWord) {s : State} (hfill : FillInRange s)
    (hbuf : BufHoldsFill s) : ∃ t, presentWord w s = .next t := by
  rcases presentWord_cases w with h | ⟨d, h⟩ | h | h | h <;> rw [h]
  · exact ⟨_, execClr_eq s⟩
  · exact execPush_total d hfill
  · exact execVal_total hbuf
  · exact execDec_total hbuf
  · exact ⟨_, rfl⟩

theorem presentWord_keeps {P : State → Prop} (k : PartsKeep P) {w : CmdWord} {s t : State}
    (hs : P s) (h : presentWord w s = .next t) : P t :=
  presentPins_keeps k (rst := false) (cv := true) hs h

theorem reservedWord_loadWords (ws : List CmdWord) (s : State) :
    reservedWord (loadWords ws s) = loadWords ws (reservedWord s) := by
  unfold reservedWord
  rw [loadWords_err, raise_loadWords]
  exact (apply_ite (loadWords ws) _ _ _).symm

/-- The words still to be presented are no operand of a word, reserved or not (R27). -/
theorem presentWord_loadWords (w : CmdWord) (ws : List CmdWord) (s : State) :
    presentWord w (loadWords ws s) =
      andThen (presentWord w s) fun t => .next (loadWords ws t) := by
  cases h : decode (.cmd w) with
  | ok i => simp only [presentWord, h, exec_loadWords]
  | error e =>
    rw [presentWord_of_error h, presentWord_of_error h, reservedWord_loadWords, andThen_next]

/-- Words presented one after another, stopping at a fault or a refusal. -/
def presentAll : List CmdWord → State → Result
  | [], s => .next s
  | w :: ws, s => andThen (presentWord w s) (presentAll ws)

/-- A program of any words, one a step, presents its words in order (R6). -/
theorem run_loadWords (ws : List CmdWord) (s : State) :
    runSteps ws.length (loadWords ws s) = presentAll ws s := by
  induction ws generalizing s with
  | nil => rfl
  | cons w ws ih =>
    rw [List.length_cons, run_loadWords_cons, presentWord_loadWords, presentAll]
    cases presentWord w s with
    | next t => exact ih t
    | fault r => rfl
    | refused r => rfl

theorem presentAll_total (ws : List CmdWord) {s : State} (hfill : FillInRange s)
    (hbuf : BufHoldsFill s) : ∃ t, presentAll ws s = .next t := by
  induction ws generalizing s with
  | nil => exact ⟨s, rfl⟩
  | cons w ws ih =>
    obtain ⟨u, hu⟩ := presentWord_total w hfill hbuf
    rw [presentAll, hu, andThen_next]
    exact ih (presentWord_keeps fillInRange_partsKeep hfill hu)
      (presentWord_keeps bufHoldsFill_partsKeep hbuf hu)

/-! ### The parser does not see what is outside it (R40, R88) -/

/-- The parser of `s`, its strap included, in the surroundings of `o`. -/
def withOutside (o s : State) : State :=
  { o with
    buf := s.buf, fill := s.fill, vd := s.vd, csum := s.csum, csok := s.csok, ppm := s.ppm
    pv := s.pv, err := s.err, strict := s.strict }

theorem sameParser_withOutside (o s : State) : sameParser s (withOutside o s) :=
  ⟨rfl, rfl, rfl, rfl, rfl, rfl, rfl, rfl⟩

/-- Two cleared parsers differ in their straps and their surroundings only. -/
theorem resetParser_eq_withOutside {s o : State} (h : s.strict = o.strict) :
    resetParser o = withOutside o (resetParser s) := by
  simp [withOutside, resetParser, h]

section Outside

variable (o : State) {s t : State}

theorem execPush_withOutside {d : Byte} (h : execPush d s = .next t) :
    execPush d (withOutside o s) = .next (withOutside o t) := by
  rcases execPush_cases h with ⟨he, rfl⟩ | ⟨he, hf, rfl⟩ | ⟨he, hroom, rfl⟩
  · exact execPush_of_err he
  · exact execPush_of_full he hf
  · exact execPush_of_room he hroom

theorem execVal_withOutside (h : execVal s = .next t) :
    execVal (withOutside o s) = .next (withOutside o t) := by
  rcases execVal_cases h with ⟨he, rfl⟩ | ⟨he, hf, rfl⟩ | ⟨he, hf, ⟨b0, h0, hm⟩, rfl⟩ |
    ⟨he, hf, h0, c, b8, hc, h8, rfl⟩
  · exact execVal_of_err he
  · exact execVal_of_short he hf
  · exact execVal_of_wrongMarker he hf h0 hm
  · exact execVal_of_marker he hf h0 hc h8

theorem execDec_withOutside (h : execDec s = .next t) :
    execDec (withOutside o s) = .next (withOutside o t) := by
  rcases execDec_cases h with ⟨he, rfl⟩ | ⟨he, hf, rfl⟩ | ⟨he, hf, hv, rfl⟩ |
    ⟨he, hf, hv, hc, hstrict, rfl⟩ | ⟨he, hf, hv, hpass, v, hp, rfl⟩
  · exact execDec_of_err he
  · exact execDec_of_short he hf
  · exact execDec_of_order he hf hv
  · exact execDec_of_mismatch he hf hv hc hstrict
  · exact execDec_of_accepted he hf hv hpass hp

theorem reservedWord_withOutside (s : State) :
    reservedWord (withOutside o s) = withOutside o (reservedWord s) :=
  (apply_ite (withOutside o) (s.err ≠ .noError) s (raise .illegal s)).symm

theorem presentWord_withOutside {w : CmdWord} (h : presentWord w s = .next t) :
    presentWord w (withOutside o s) = .next (withOutside o t) := by
  rcases presentWord_cases w with hw | ⟨d, hw⟩ | hw | hw | hw <;> rw [hw] at h ⊢
  · injection h with h
    exact h ▸ rfl
  · exact execPush_withOutside o h
  · exact execVal_withOutside o h
  · exact execDec_withOutside o h
  · injection h with h
    exact h ▸ congrArg _ (reservedWord_withOutside o s)

theorem presentAll_withOutside {ws : List CmdWord} (h : presentAll ws s = .next t) :
    presentAll ws (withOutside o s) = .next (withOutside o t) := by
  induction ws generalizing s with
  | nil =>
    injection h with h
    exact h ▸ rfl
  | cons w ws ih =>
    obtain ⟨u, hu, hrest⟩ := andThen_eq_next h
    rw [presentAll, presentWord_withOutside o hu, andThen_next]
    exact ih hrest

end Outside

/-- A program that begins with CLR runs the rest on the cleared parser (R40). -/
theorem run_clr_loadWords (ws : List CmdWord) (s : State) :
    runSteps (ws.length + 1) (loadWords (0x100 :: ws) s) = presentAll ws (resetParser s) :=
  run_loadWords (0x100 :: ws) s

/-- Settles O34: after CLR the second machine is the first one's parser in other surroundings, and
no word tells surroundings apart. -/
theorem noRetentionAcrossClr : Obligations.NoRetentionAcrossClr := by
  intro s₁ s₂ ws hstrict
  have hfill : FillInRange (resetParser s₁) := Nat.zero_le 9
  have hbuf : BufHoldsFill (resetParser s₁) := rfl
  obtain ⟨t, ht⟩ := presentAll_total ws hfill hbuf
  refine ⟨t, withOutside s₂ t, (run_clr_loadWords ws s₁).trans ht, ?_, sameParser_withOutside s₂ t⟩
  rw [run_clr_loadWords, resetParser_eq_withOutside hstrict]
  exact presentAll_withOutside s₂ ht

end Sys2Proof.Machine

/-!
The validation's family (spec/41_validate.md): the checksum as the negation of a sum of bytes, VAL
case by case, and one whole poll cycle of the host, turn by turn, to the value it reports.
-/

namespace Sys2Proof.Machine

/-! ### The checksum as a sum of bytes (R46, R47) -/

theorem add8_toNat (a b : Byte) : (add8 a b).toNat = (a.toNat + b.toNat) % 256 :=
  BitVec.toNat_add a b

theorem sub8_toNat (a b : Byte) :
    ((sub8 a b).toNat : Int) = ((a.toNat : Int) - b.toNat) % 256 := by
  have hsub : (sub8 a b).toNat = (256 - b.toNat + a.toNat) % 256 := BitVec.toNat_sub a b
  omega

/-- Wrapping at each addition is wrapping once, at the end (R46). -/
theorem sum_toNat (bs : List Byte) : bs.sum.toNat = (bs.map BitVec.toNat).sum % 256 := by
  induction bs with
  | nil => rfl
  | cons b bs ih =>
    rw [List.sum_cons, BitVec.toNat_add, ih, Nat.add_mod_mod, List.map_cons, List.sum_cons]

/-- The running sum of R46 over seven bytes is their sum. -/
theorem add8_chain_eq_sum (b1 b2 b3 b4 b5 b6 b7 : Byte) :
    add8 (add8 (add8 (add8 (add8 (add8 (add8 0x00 b1) b2) b3) b4) b5) b6) b7 =
      [b1, b2, b3, b4, b5, b6, b7].sum := by
  simp [add8, add_assoc]

theorem add8_chain_toNat (b1 b2 b3 b4 b5 b6 b7 : Byte) :
    (add8 (add8 (add8 (add8 (add8 (add8 (add8 0x00 b1) b2) b3) b4) b5) b6) b7).toNat =
      (b1.toNat + b2.toNat + b3.toNat + b4.toNat + b5.toNat + b6.toNat + b7.toNat) % 256 := by
  rw [add8_chain_eq_sum, sum_toNat]
  simp [add_assoc]

theorem sub8_ff_eq_not (s : Byte) : sub8 0xFF s = ~~~s := BitVec.allOnes_sub_eq_not s

/-- 0xFF less a byte, plus one, is the byte's negation: the two's complement. -/
theorem add8_sub8_ff_one (s : Byte) : add8 (sub8 0xFF s) 0x01 = -s := by
  rw [sub8_ff_eq_not, BitVec.neg_eq_not_add]
  rfl

theorem cksum_eq_neg_sum (b1 b2 b3 b4 b5 b6 b7 : Byte) :
    cksum b1 b2 b3 b4 b5 b6 b7 = -[b1, b2, b3, b4, b5, b6, b7].sum := by
  rw [← add8_chain_eq_sum]
  exact add8_sub8_ff_one _

theorem checksumOk_iff (c r : Byte) : checksumOk c r = true ↔ c = r := beq_iff_eq

theorem bufCksum_of_reads {s : State} {b1 b2 b3 b4 b5 b6 b7 : Byte}
    (h1 : bufRead s 1 = some b1) (h2 : bufRead s 2 = some b2) (h3 : bufRead s 3 = some b3)
    (h4 : bufRead s 4 = some b4) (h5 : bufRead s 5 = some b5) (h6 : bufRead s 6 = some b6)
    (h7 : bufRead s 7 = some b7) : bufCksum s = some (cksum b1 b2 b3 b4 b5 b6 b7) := by
  simp only [bufCksum, h1, h2, h3, h4, h5, h6, h7]

/-- Settles O5: the running sum wraps once, and the checksum is its two's complement. -/
theorem checksumStepByStep : Obligations.ChecksumStepByStep := by
  refine ⟨?steps, fun a b => ⟨add8_toNat a b, sub8_toNat a b⟩, by decide,
    fun _ _ _ _ _ _ _ _ => bufCksum_of_reads⟩
  case steps =>
    intro b1 b2 b3 b4 b5 b6 b7 s sum
    have hs : s.toNat = sum % 256 := add8_chain_toNat b1 b2 b3 b4 b5 b6 b7
    have hc : cksum b1 b2 b3 b4 b5 b6 b7 = add8 (sub8 0xFF s) 0x01 := rfl
    refine ⟨hc, hs, ?_⟩
    rw [hc, add8_sub8_ff_one, BitVec.toNat_neg, hs]
    omega

/-- Settles O6: the checksum is the negation of the sum, and a sum has no order. -/
theorem checksumLaws : Obligations.ChecksumLaws := by
  refine ⟨?arithmetic, ?order⟩
  case arithmetic =>
    intro b1 b2 b3 b4 b5 b6 b7 sum s c
    have hs : s.toNat = sum % 256 := add8_chain_toNat b1 b2 b3 b4 b5 b6 b7
    have hcs : c = -s := add8_sub8_ff_one s
    have hc : c.toNat = (256 - sum % 256) % 256 := by rw [hcs, BitVec.toNat_neg, hs]
    have hsub : (sub8 0xFF s).toNat = 255 - sum % 256 := by
      rw [sub8_ff_eq_not, BitVec.toNat_not, hs]
    have hsum : sum ≤ 1785 := by omega
    have hcancel : add8 s c = 0x00 := by rw [hcs]; exact add_neg_cancel s
    have hmatch (b8 : Byte) : checksumOk c b8 = true ↔ (sum + b8.toNat) % 256 = 0 := by
      rw [checksumOk_iff, ← BitVec.toNat_inj, hc]
      omega
    have hzero : c = 0x00 ↔ sum % 256 = 0 := by
      rw [← BitVec.toNat_inj, hc]
      change (256 - sum % 256) % 256 = 0 ↔ _
      omega
    exact ⟨hsum, hsub, sub8_ff_eq_not s, hc, hcs, hzero, hcancel, hmatch, by omega⟩
  case order =>
    intro b1 b2 b3 b4 b5 b6 b7 b1' b2' b3' b4' b5' b6' b7' hperm
    rw [cksum_eq_neg_sum, cksum_eq_neg_sum, hperm.sum_eq]

/-! ### VAL (R45) -/

theorem execVal_idempotent {s t : State} (h : execVal s = .next t) : execVal t = .next t := by
  rcases execVal_cases h with ⟨he, rfl⟩ | ⟨_, _, rfl⟩ | ⟨_, _, _, rfl⟩ |
    ⟨he, hf, h0, c, b8, hc, h8, rfl⟩
  · exact execVal_of_err he
  · exact execVal_of_err (by simp)
  · exact execVal_of_err (by simp)
  · exact execVal_of_marker he hf h0 hc h8

/-- A frame once validated holds what VAL would record (R17 item 2). -/
theorem execVal_of_validated {s : State} (hs : ParserInv s) (hv : s.vd = true) :
    execVal s = .next s := by
  obtain ⟨_, hbuf, hchecked, _, _, _⟩ := hs
  obtain ⟨hf, h0, hsome, hcsum, hcsok⟩ := hchecked hv
  obtain ⟨c, hc⟩ := Option.isSome_iff_exists.mp hsome
  obtain ⟨b8, h8⟩ := bufRead_of_full hbuf hf (a := 8) (by decide)
  have hok : s.csok = checksumOk c b8 := by
    rw [hcsok, hc, h8]
    exact decide_eq_decide.mpr Option.some_inj
  have hrecorded : recordChecksum c (checksumOk c b8) s = s := by
    rw [← hok, recordChecksum, ← hc, ← hv]
  by_cases he : s.err = .noError
  · rw [execVal_of_marker he hf h0 (hcsum ▸ hc) h8, hrecorded]
  · exact execVal_of_err he

/-- Settles O17: the answers of VAL case by case, none of which reads STRICT. -/
theorem valMeaning : Obligations.ValMeaning := by
  refine ⟨rfl, fun s he => execVal_of_err he, fun s he hf => execVal_of_short he hf,
    fun s b0 he hf h0 hm => execVal_of_wrongMarker he hf h0 hm, ?success,
    fun s t h => execVal_idempotent h, fun s hs hv => execVal_of_validated hs hv⟩
  case success =>
    intro s b1 b2 b3 b4 b5 b6 b7 b8 he hf h0 h1 h2 h3 h4 h5 h6 h7 h8
    exact execVal_of_marker he hf h0 (bufCksum_of_reads h1 h2 h3 h4 h5 h6 h7) h8

/-! ### A turn of the READY host, by the step it stands at (R58) -/

/-- The READY host at a step of the cycle, with the bytes and the events that wait for it. -/
structure HostAt (s : State) (p : Phase) (bs : List Byte) (es : List Event) : Prop where
  mode : s.mode = .ready
  phase : s.phase = p
  rx : s.rx = bs
  inputs : s.inputs = es

/-- A turn taken from the schedule, and the time since the last one gone by. -/
def takeTurn (dt : Nat) (es : List Event) (s : State) : State :=
  { s with inputs := es, elapsed := s.elapsed + dt }

section HostAt

variable {s : State} {p : Phase} {bs : List Byte} {e : Event} {es : List Event}

theorem hostAt_takeTurn (h : HostAt s p bs (e :: es)) (dt : Nat) :
    HostAt (takeTurn dt es s) p bs es := ⟨h.mode, h.phase, h.rx, rfl⟩

theorem hostAt_goto (h : HostAt s p bs es) (p' : Phase) : HostAt (goto p' s) p' bs es :=
  ⟨h.mode, rfl, h.rx, h.inputs⟩

theorem hostAt_abandon (h : HostAt s p bs es) : HostAt (abandon s) .transmit bs es :=
  ⟨h.mode, rfl, h.rx, h.inputs⟩

theorem hostAt_resetParser (h : HostAt s p bs es) : HostAt (resetParser s) p bs es :=
  ⟨h.mode, h.phase, h.rx, h.inputs⟩

theorem hostAt_sendBytes (h : HostAt s p bs es) (sent : List Byte) :
    HostAt (sendBytes sent s) p bs es := ⟨h.mode, h.phase, h.rx, h.inputs⟩

theorem hostAt_withOutside (h : HostAt s p bs es) (q : State) :
    HostAt (withOutside s q) p bs es := ⟨h.mode, h.phase, h.rx, h.inputs⟩

end HostAt

theorem step_of_turn {s : State} {p : Phase} {bs : List Byte} {es : List Event} {dt : Nat}
    {c : Bool} (h : HostAt s p bs (.turn dt c :: es)) :
    step s = readyTurn c (takeTurn dt es s) := by
  rw [step_cons h.inputs]
  simp [runEvent, hostTurn, takeTurn, h.mode]

section ReadyTurn

variable {s : State} {c : Bool}

theorem readyTurn_of_transmit (hp : s.phase = .transmit) :
    readyTurn c s = andThen (execCommandFrame s) fun t => .next (goto (.clear t.elapsed) t) := by
  rw [readyTurn, hp]
  rfl

theorem readyTurn_of_clear {since : Nat} (hp : s.phase = .clear since) :
    readyTurn c s = .next (goto (.settle since) (resetParser s)) := by
  rw [readyTurn, hp]
  rfl

theorem readyTurn_of_settled {since : Nat} (hp : s.phase = .settle since)
    (hover : s.settleDelay ≤ s.elapsed - since) :
    readyTurn c s = .next (goto (.read 0 s.elapsed) s) := by
  simp [readyTurn, hp, hover]

theorem readyTurn_of_byte {got since : Nat} {b : Byte} {bs : List Byte}
    (hp : s.phase = .read got since) (hrx : s.rx = b :: bs) :
    readyTurn c s = andThen (execPush b { s with rx := bs }) fun t =>
      .next (goto (if got + 1 < 9 then .read (got + 1) since else .validate) t) := by
  simp only [readyTurn, hp, hrx]
  rfl

theorem readyTurn_of_validate (hp : s.phase = .validate) :
    readyTurn c s = andThen (execVal s) (unlessError .decode) := by
  rw [readyTurn, hp]
  rfl

theorem readyTurn_of_decode (hp : s.phase = .decode) :
    readyTurn c s = andThen (execDec s) (unlessError .check) := by
  rw [readyTurn, hp]
  rfl

theorem readyTurn_of_check (hp : s.phase = .check) :
    readyTurn c s = .next { s with report := conc s, phase := .transmit } := by
  rw [readyTurn, hp]

end ReadyTurn

theorem unlessError_of_err {p : Phase} {s : State} (h : s.err ≠ .noError) :
    unlessError p s = .next (abandon s) := if_pos h

theorem unlessError_of_noError {p : Phase} {s : State} (h : s.err = .noError) :
    unlessError p s = .next (goto p s) := if_neg (not_not.mpr h)

/-! ### Steps 1 and 2: the transmission, the CLR and the settle delay -/

section Cycle

variable {s o p q : State} {bs : List Byte} {es : List Event} {dt : Nat} {c : Bool}

theorem step_transmit (h : HostAt s .transmit bs (.turn dt c :: es)) :
    ∃ t, step s = .next t ∧ HostAt t (.clear t.elapsed) bs es ∧ t.settleDelay = s.settleDelay ∧
      t.strict = s.strict ∧ t.report = s.report := by
  have hat := hostAt_takeTurn h dt
  rw [step_of_turn h, readyTurn_of_transmit hat.phase, execCommandFrame_eq]
  exact ⟨_, rfl, hostAt_goto (hostAt_sendBytes hat _) _, rfl, rfl, rfl⟩

theorem step_clear {since : Nat} (h : HostAt s (.clear since) bs (.turn dt c :: es)) :
    step s = .next (goto (.settle since) (resetParser (takeTurn dt es s))) := by
  rw [step_of_turn h, readyTurn_of_clear (hostAt_takeTurn h dt).phase]

theorem step_settled {since : Nat} (h : HostAt s (.settle since) bs (.turn dt c :: es))
    (hover : s.settleDelay ≤ s.elapsed + dt - since) :
    step s = .next (goto (.read 0 (s.elapsed + dt)) (takeTurn dt es s)) :=
  (step_of_turn h).trans (readyTurn_of_settled (hostAt_takeTurn h dt).phase hover)

/-- After an abandoned cycle the next one's transmission and CLR leave the report alone. -/
theorem run_transmit_clear_report (h : HostAt s .transmit bs (.turn dt c :: .turn dt c :: es)) :
    ∃ t, runSteps 2 s = .next t ∧ t.report = s.report := by
  obtain ⟨u, hu, hat, _, _, hreport⟩ := step_transmit h
  rw [run_succ_of_next hu, run_succ_of_next (step_clear hat)]
  exact ⟨_, rfl, hreport⟩

/-- Three turns take the host from the transmission to its first read, with the parser clear: by
the third, two turns have gone by since the transmission (log entries 10 and 11). -/
theorem run_to_reading
    (h : HostAt s .transmit bs (.turn dt c :: .turn dt c :: .turn dt c :: es))
    (hsettle : s.settleDelay ≤ 2 * dt) :
    ∃ t o since, runSteps 3 s = .next (withOutside o (resetParser t)) ∧ t.strict = s.strict ∧
      HostAt o (.read 0 since) bs es := by
  obtain ⟨t, ht, hat, hdelay, hstrict, _⟩ := step_transmit h
  have hcleared := hostAt_goto (hostAt_resetParser (hostAt_takeTurn hat dt)) (.settle t.elapsed)
  have hover : t.settleDelay ≤ t.elapsed + dt + dt - t.elapsed := by omega
  rw [run_succ_of_next ht, run_succ_of_next (step_clear hat),
    run_succ_of_next (step_settled hcleared hover), run_zero]
  exact ⟨t, _, _, rfl, hstrict, hostAt_goto (hostAt_takeTurn hcleared dt) _⟩

/-! ### Step 3: nine bytes, one a turn -/

/-- Where the host stands with `got` bytes read: at step 3, or at step 4 after the ninth. -/
def readPhase (got since : Nat) : Phase :=
  if got < 9 then .read got since else .validate

theorem step_read {got since : Nat} {b : Byte}
    (h : HostAt o (.read got since) (b :: bs) (.turn dt c :: es)) (hpush : execPush b p = .next q) :
    ∃ o', step (withOutside o p) = .next (withOutside o' q) ∧
      HostAt o' (readPhase (got + 1) since) bs es := by
  have hat := hostAt_takeTurn (hostAt_withOutside h p) dt
  have hpush' := execPush_withOutside { takeTurn dt es o with rx := bs } hpush
  refine ⟨goto (readPhase (got + 1) since) { takeTurn dt es o with rx := bs }, ?_,
    ⟨h.mode, rfl, rfl, rfl⟩⟩
  rw [step_of_turn (hostAt_withOutside h p), readyTurn_of_byte hat.phase hat.rx]
  exact congrArg (andThen · _) hpush'

/-- The bytes still to be read are pushed in order, and then the host is at step 4. -/
theorem run_reading {got since : Nat} (hlen : got + bs.length = 9)
    (h : HostAt o (readPhase got since) bs (List.replicate bs.length (.turn dt c) ++ es))
    (hpush : pushAll bs p = .next q) :
    ∃ o', runSteps bs.length (withOutside o p) = .next (withOutside o' q) ∧
      HostAt o' .validate [] es := by
  induction bs generalizing o p got with
  | nil =>
    injection hpush with hpq
    subst hpq hlen
    exact ⟨o, rfl, h⟩
  | cons b bs ih =>
    rw [List.length_cons] at hlen
    have hphase : readPhase got since = .read got since := if_pos (by omega)
    obtain ⟨u, hb, hbs⟩ := andThen_eq_next hpush
    obtain ⟨o₁, hstep, hat⟩ := step_read (hphase ▸ h) hb
    rw [List.length_cons, run_succ_of_next hstep]
    exact ih (by omega) hat hbs

/-- Twelve turns, three to the first read and one for each byte, leave the frame to VAL. -/
theorem run_to_validate {f : Frame}
    (h : HostAt s .transmit (frameBytes f) (List.replicate 12 (.turn dt c) ++ es))
    (hsettle : s.settleDelay ≤ 2 * dt) :
    ∃ t o, runSteps 12 s = .next (withOutside o (withFrame f t)) ∧ t.strict = s.strict ∧
      HostAt o .validate [] es := by
  obtain ⟨t, o, since, hrun, hstrict, hat⟩ := run_to_reading h hsettle
  obtain ⟨o', hread, hat'⟩ := run_reading (got := 0) rfl hat (pushAll_resetParser f t)
  refine ⟨t, o', ?_, hstrict, hat'⟩
  calc runSteps 12 s
      = andThen (runSteps 3 s) (runSteps 9) := run_add 3 9 s
    _ = runSteps 9 (withOutside o (resetParser t)) := by rw [hrun, andThen_next]
    _ = .next (withOutside o' (withFrame f t)) := hread

/-! ### Steps 4 and 5: VAL and DEC -/

section OrAbandon

variable {ph next : Phase} {f : State → Result}
variable (hturn : ∀ s, s.phase = ph → readyTurn c s = andThen (f s) (unlessError next))
variable (hf : ∀ o, f (withOutside o p) = .next (withOutside o q))
variable (h : HostAt o ph bs (.turn dt c :: es))
include hturn hf h

theorem step_orAbandon :
    step (withOutside o p) = unlessError next (withOutside (takeTurn dt es o) q) := by
  have hat := hostAt_takeTurn (hostAt_withOutside h p) dt
  rw [step_of_turn (hostAt_withOutside h p), hturn _ hat.phase]
  exact congrArg (andThen · _) (hf (takeTurn dt es o))

/-- An error at step 4 or 5 abandons the cycle (R58, R76). -/
theorem step_abandons (herr : q.err ≠ .noError) :
    ∃ t, step (withOutside o p) = .next t ∧ HostAt t .transmit bs es ∧ t.report = -1 :=
  ⟨_, (step_orAbandon hturn hf h).trans (unlessError_of_err herr),
    hostAt_abandon (hostAt_withOutside (hostAt_takeTurn h dt) q), rfl⟩

theorem step_goes_on (herr : q.err = .noError) :
    ∃ o', step (withOutside o p) = .next (withOutside o' q) ∧ HostAt o' next bs es :=
  ⟨goto next (takeTurn dt es o), (step_orAbandon hturn hf h).trans (unlessError_of_noError herr),
    hostAt_goto (hostAt_takeTurn h dt) next⟩

end OrAbandon

/-! ### Step 6: the value reported (R59, R60) -/

theorem concentration_toNat (hi lo : Byte) :
    (concentration hi lo).toNat = hi.toNat * 256 + lo.toNat := by
  unfold concentration
  bv_omega

theorem conc_of_decoded {v : PpmWord} (he : s.err = .noError) (hpv : s.pv = true)
    (hppm : s.ppm = some v) (hm : s.mode = .ready) :
    conc s = if v.toNat ≤ 15000 then (v.toNat : Int) else -1 := by
  simp [conc, he, hpv, hppm, hm, plausible]

theorem step_check (h : HostAt s .check bs (.turn dt c :: es)) :
    ∃ t, step s = .next t ∧ t.report = conc s := by
  rw [step_of_turn h, readyTurn_of_check (hostAt_takeTurn h dt).phase]
  exact ⟨_, rfl, rfl⟩

/-! ### The last three turns, by the frame in the buffer -/

section Frame

variable {f : Frame} (h : HostAt o .validate [] (.turn dt c :: .turn dt c :: .turn dt c :: es))
include h

/-- VAL finds the wrong marker; the two turns left begin the next cycle. -/
theorem run_validate_of_invalid (hm : f.b0 ≠ Config.marker) :
    ∃ t, runSteps 3 (withOutside o (withFrame f s)) = .next t ∧ t.report = -1 := by
  obtain ⟨u, hu, hat, hreport⟩ := step_abandons (fun _ => readyTurn_of_validate)
    (fun o => execVal_withOutside o (execVal_withFrame_of_invalid hm s)) h (by simp)
  obtain ⟨t, ht, hkept⟩ := run_transmit_clear_report hat
  exact ⟨t, (run_succ_of_next hu 2).trans ht, hkept.trans hreport⟩

/-- With the right marker VAL records the checksum and the host goes on to DEC. -/
theorem step_validate_of_marker (hm : f.b0 = Config.marker) :
    ∃ o', step (withOutside o (withFrame f s)) = .next (withOutside o'
        (recordChecksum (frameCksum f) (checksumOk (frameCksum f) f.b8) (withFrame f s))) ∧
      HostAt o' .decode [] (.turn dt c :: .turn dt c :: es) :=
  step_goes_on (fun _ => readyTurn_of_validate)
    (fun o => execVal_withOutside o (execVal_withFrame hm s)) h rfl

/-- DEC refuses the mismatch under STRICT = 1; the turn left begins the next cycle. -/
theorem run_validate_of_mismatch (hm : f.b0 = Config.marker) (hs : s.strict = true)
    (hok : checksumOk (frameCksum f) f.b8 = false) :
    ∃ t, runSteps 3 (withOutside o (withFrame f s)) = .next t ∧ t.report = -1 := by
  obtain ⟨o₁, hval, hat⟩ := step_validate_of_marker (s := s) h hm
  obtain ⟨u, hdec, hat, hreport⟩ := step_abandons (fun _ => readyTurn_of_decode)
    (fun o => execDec_withOutside o (execDec_withFrame_of_mismatch hs)) hat (by simp)
  obtain ⟨t, ht, _, _, _, hkept⟩ := step_transmit hat
  rw [hok] at hval
  rw [run_succ_of_next hval, run_succ_of_next hdec, run_succ_of_next ht]
  exact ⟨t, rfl, hkept.trans hreport⟩

/-- DEC composes the reading, and the check reports it where it is plausible. -/
theorem run_validate_of_accepted (hm : f.b0 = Config.marker)
    (hpass : s.strict = true → checksumOk (frameCksum f) f.b8 = true) :
    ∃ t, runSteps 3 (withOutside o (withFrame f s)) = .next t ∧
      t.report = if f.b2.toNat * 256 + f.b3.toNat ≤ 15000 then
        ((f.b2.toNat * 256 + f.b3.toNat : Nat) : Int) else -1 := by
  obtain ⟨o₁, hval, hat⟩ := step_validate_of_marker (s := s) h hm
  obtain ⟨o₂, hdec, hat⟩ := step_goes_on (fun _ => readyTurn_of_decode)
    (fun o => execDec_withOutside o (execDec_withFrame hpass)) hat rfl
  obtain ⟨t, ht, hreport⟩ := step_check (hostAt_withOutside hat _)
  rw [run_succ_of_next hval, run_succ_of_next hdec, run_succ_of_next ht]
  refine ⟨t, rfl, hreport.trans ?_⟩
  rw [← concentration_toNat]
  exact conc_of_decoded rfl rfl rfl hat.mode

end Frame

end Cycle

/-- Settles O45: twelve turns bring the frame to VAL, and the last three report by its marker, its
checksum and STRICT. -/
theorem pollCycleReportsReading : Obligations.PollCycleReportsReading := by
  intro s f es dt c hmode hphase hrx hsettle
  have hstart : HostAt { s with inputs := List.replicate 15 (.turn dt c) ++ es } .transmit
      (frameBytes f) (List.replicate 12 (.turn dt c) ++
        (.turn dt c :: .turn dt c :: .turn dt c :: es)) := ⟨hmode, hphase, hrx, rfl⟩
  obtain ⟨p, o, hrun, hstrict, hat⟩ := run_to_validate hstart hsettle
  have hstrict : p.strict = s.strict := hstrict
  rw [run_add 12 3, hrun, andThen_next]
  by_cases hm : f.b0 = Config.marker
  · by_cases hpass : s.strict = true → frameCksum f = f.b8
    · obtain ⟨t, ht, hreport⟩ := run_validate_of_accepted hat hm (s := p)
        fun hs => (checksumOk_iff _ _).mpr (hpass (hstrict ▸ hs))
      refine ⟨t, ht, ?_⟩
      simpa only [hm, true_and, and_iff_right hpass] using hreport
    · obtain ⟨hs, hne⟩ := Classical.not_imp.mp hpass
      obtain ⟨t, ht, hreport⟩ := run_validate_of_mismatch hat hm (hstrict.trans hs)
        (Bool.eq_false_of_not_eq_true (mt (checksumOk_iff _ _).mp hne))
      exact ⟨t, ht, hreport.trans (if_neg fun ⟨_, hck, _⟩ => hpass hck).symm⟩
  · obtain ⟨t, ht, hreport⟩ := run_validate_of_invalid hat hm (s := p)
    exact ⟨t, ht, hreport.trans (if_neg fun ⟨hmarker, _⟩ => hm hmarker).symm⟩

end Sys2Proof.Machine

/-!
The decoding's family (spec/42_decode.md): DEC case by case.
-/

namespace Sys2Proof.Machine

/-! ### DEC (R50) -/

theorem bufConcentration_of_reads {s : State} {hi lo : Byte} (hhi : bufRead s 2 = some hi)
    (hlo : bufRead s 3 = some lo) : bufConcentration s = some (concentration hi lo) := by
  simp only [bufConcentration, hhi, hlo]

/-- An error DEC raised stops the second DEC; a DEC that succeeded wrote nothing that DEC reads. -/
theorem execDec_idempotent {s t : State} (h : execDec s = .next t) : execDec t = .next t := by
  rcases execDec_cases h with ⟨he, rfl⟩ | ⟨_, _, rfl⟩ | ⟨_, _, _, rfl⟩ | ⟨_, _, _, _, _, rfl⟩ |
    ⟨he, hf, hv, hpass, v, hp, rfl⟩
  · exact execDec_of_err he
  · exact execDec_of_err (by simp)
  · exact execDec_of_err (by simp)
  · exact execDec_of_err (by simp)
  · exact execDec_of_accepted he hf hv hpass hp

/-- Settles O18: the answers of DEC case by case, the value composed from bytes 2 and 3. -/
theorem decMeaning : Obligations.DecMeaning := by
  refine ⟨rfl, fun s he => execDec_of_err he, fun s he hf => execDec_of_short he hf,
    fun s he hf hv => execDec_of_order he hf hv,
    fun s he hf hv hstrict hcsok => execDec_of_mismatch he hf hv hcsok hstrict, ?success,
    fun s t h => execDec_idempotent h⟩
  case success =>
    intro s hi lo he hf hv hpass hhi hlo
    have hcsok : s.strict = true → s.csok = true := fun hs => hpass.resolve_left (by simp [hs])
    exact ⟨concentration hi lo, concentration_toNat hi lo,
      execDec_of_accepted he hf hv hcsok (bufConcentration_of_reads hhi hlo)⟩

end Sys2Proof.Machine

/-!
The host's family (spec/43_host_poll_cycle.md): the ceiling of R59 and the report of R60.
-/

namespace Sys2Proof.Machine

/-! ### The accepted values (R59) and the reported concentration (R60) -/

theorem plausible_iff (v : PpmWord) : plausible v = true ↔ v.toNat ≤ 15000 := decide_eq_true_iff

/-- What the host can report: the sentinel, or an accepted reading under every guard of R60. -/
theorem conc_cases (s : State) :
    conc s = -1 ∨ ∃ v : PpmWord, s.err = .noError ∧ s.pv = true ∧ s.mode = .ready ∧
      v.toNat ≤ 15000 ∧ conc s = (v.toNat : Int) := by
  cases hppm : s.ppm with
  | none => exact .inl (by simp only [conc, hppm])
  | some v =>
    by_cases hguard : s.err = .noError ∧ s.pv = true ∧ plausible v = true ∧ s.mode = .ready
    · have hconc : conc s = (v.toNat : Int) := by simp only [conc, hppm, if_pos hguard]
      obtain ⟨he, hpv, hv, hm⟩ := hguard
      exact .inr ⟨v, he, hpv, hm, (plausible_iff v).mp hv, hconc⟩
    · exact .inl (by simp only [conc, hppm, if_neg hguard])

theorem conc_eq_sentinel_of_no_reading {s : State}
    (h : s.err ≠ .noError ∨ s.pv = false ∨ s.mode = .warmingUp) : conc s = -1 := by
  rcases conc_cases s with hconc | ⟨_, he, hpv, hm, _, _⟩
  · exact hconc
  · simp [he, hpv, hm] at h

theorem conc_bounds_of_ne_sentinel {s : State} (h : conc s ≠ -1) :
    0 ≤ conc s ∧ conc s ≤ 15000 := by
  obtain ⟨v, _, _, _, hv, hconc⟩ := (conc_cases s).resolve_left h
  omega

/-- Settles O42: a report is the sentinel or an accepted reading, and which one the guards say. -/
theorem reportedConcentration : Obligations.ReportedConcentration :=
  ⟨plausible_iff, by decide, by decide, by decide,
    fun _ _ he hpv hppm hm => conc_of_decoded he hpv hppm hm,
    fun _ => conc_eq_sentinel_of_no_reading, fun _ => conc_bounds_of_ne_sentinel⟩

end Sys2Proof.Machine

/-!
The exceptions' family (spec/60_exceptions.md): the order in which a step of the pins is decided,
entering an error and waiting in it, the totality of every step and run, and the turns of the host
that can find an error.
-/

namespace Sys2Proof.Machine

/-! ### A command word by the state of ERR (R72, R73, R74) -/

theorem step_of_word {s : State} {es : List Event} {w : CmdWord}
    (h : s.inputs = .pins false true w :: es) : step s = presentWord w { s with inputs := es } :=
  step_cons h

theorem step_of_noOperation {s : State} {es : List Event} {w : CmdWord}
    (h : s.inputs = .pins false false w :: es) : step s = .next { s with inputs := es } :=
  step_cons h

theorem presentWord_clr (s : State) : presentWord 0x100 s = .next (resetParser s) := rfl

theorem presentWord_of_ok {w : CmdWord} {i : Instr} (h : decode (.cmd w) = .ok i) (s : State) :
    presentWord w s = exec i s := by
  simp only [presentWord, h]

theorem eq_0x100_of_decode_clr {w : CmdWord} (h : decode (.cmd w) = .ok .clr) : w = 0x100#11 := by
  rw [decode_cmd_eq] at h
  split_ifs at h with hclr
  case pos => exact (eq_cmdWordOf_iff w 0b001 0x00).mpr hclr
  all_goals cases h

theorem reservedWord_of_err {s : State} (h : s.err ≠ .noError) : reservedWord s = s := if_pos h

theorem reservedWord_of_noError {s : State} (h : s.err = .noError) :
    reservedWord s = raise .illegal s := if_neg (not_not.mpr h)

/-- While ERR is set only CLR is performed (R73). -/
theorem presentWord_of_err {w : CmdWord} {s : State} (he : s.err ≠ .noError)
    (hw : w ≠ 0x100#11) : presentWord w s = .next s := by
  cases hdec : decode (.cmd w) with
  | error e => rw [presentWord_of_error hdec, reservedWord_of_err he]
  | ok i =>
    rw [presentWord_of_ok hdec]
    rcases decode_cmd_ok_cases hdec with rfl | ⟨d, rfl⟩ | rfl | rfl
    · exact absurd (eq_0x100_of_decode_clr hdec) hw
    · exact execPush_of_err he
    · exact execVal_of_err he
    · exact execDec_of_err he

/-- Settles O11: `rst`, then `cmd_valid`, then the word by what it is and by ERR. -/
theorem pinPriority : Obligations.PinPriority := by
  intro s es rst cv w hs u
  match rst, cv with
  | true, _ => exact step_of_rst hs
  | false, false => exact step_of_noOperation hs
  | false, true =>
    refine (step_of_word hs).trans ?_
    show presentWord w u = if w = 0x100#11 then _ else _
    split_ifs with hclr herr
    · exact hclr ▸ presentWord_clr u
    · exact presentWord_of_err herr hclr
    · cases hdec : decode (.cmd w) with
      | error e =>
        have hnone : u.err = .noError := not_not.mp herr
        rw [presentWord_of_error hdec, reservedWord_of_noError hnone]
        rfl
      | ok i => exact presentWord_of_ok hdec u

/-- Settles O23: the ignored words, and the two ways out of an error, both `resetParser`. -/
theorem quiescentWhileError : Obligations.QuiescentWhileError :=
  ⟨fun _ _ _ hs he hw => (step_of_word hs).trans (presentWord_of_err he hw),
    fun _ _ hs => ⟨_, (step_of_word hs).trans (presentWord_clr _), rfl⟩,
    fun _ _ _ _ hs => ⟨_, step_of_rst hs, rfl⟩⟩

/-! ### Entering an error (R72) -/

/-- An operation that sets ERR where it was 0 does so by `raise` alone. -/
def EntersErrorByRaise (f : State → Result) : Prop :=
  ∀ s t, s.err = .noError → f s = .next t → t.err ≠ .noError → t = raise t.err s

theorem execClr_entersErrorByRaise : EntersErrorByRaise execClr := by
  intro s t _ h ht
  injection h with h
  exact absurd (h ▸ rfl) ht

theorem execPush_entersErrorByRaise (d : Byte) : EntersErrorByRaise (execPush d) := by
  intro s t he h ht
  rcases execPush_cases h with ⟨hs, _⟩ | ⟨_, _, rfl⟩ | ⟨_, _, rfl⟩
  · exact absurd he hs
  · rfl
  · exact absurd he ht

theorem execVal_entersErrorByRaise : EntersErrorByRaise execVal := by
  intro s t he h ht
  rcases execVal_cases h with ⟨hs, _⟩ | ⟨_, _, rfl⟩ | ⟨_, _, _, rfl⟩ | ⟨_, _, _, _, _, _, _, rfl⟩
  · exact absurd he hs
  · rfl
  · rfl
  · exact absurd he ht

theorem execDec_entersErrorByRaise : EntersErrorByRaise execDec := by
  intro s t he h ht
  rcases execDec_cases h with ⟨hs, _⟩ | ⟨_, _, rfl⟩ | ⟨_, _, _, rfl⟩ | ⟨_, _, _, _, _, rfl⟩ |
    ⟨_, _, _, _, _, _, rfl⟩
  · exact absurd he hs
  · rfl
  · rfl
  · rfl
  · exact absurd he ht

theorem reservedWord_entersErrorByRaise :
    EntersErrorByRaise fun s => .next (reservedWord s) := by
  intro s t he h _
  injection h with h
  rw [← h, reservedWord_of_noError he]
  rfl

theorem presentWord_entersErrorByRaise (w : CmdWord) : EntersErrorByRaise (presentWord w) := by
  rcases presentWord_cases w with h | ⟨d, h⟩ | h | h | h <;> rw [h]
  · exact execClr_entersErrorByRaise
  · exact execPush_entersErrorByRaise d
  · exact execVal_entersErrorByRaise
  · exact execDec_entersErrorByRaise
  · exact reservedWord_entersErrorByRaise

/-- Settles O22: every word that sets ERR is one `raise`, which writes ERR, PV and PPM. -/
theorem errorEntryWritesThreeRegisters : Obligations.ErrorEntryWritesThreeRegisters :=
  fun s t es w hs he h ht =>
    presentWord_entersErrorByRaise w { s with inputs := es } t he
      ((step_of_word hs).symm.trans h) ht

/-! ### Every step answers a next state (R82, R15) -/

/-- A chain answers where its first part does and what follows always does. -/
theorem andThen_total {o : Result} {k : State → Result} (ho : ∃ u, o = .next u)
    (hk : ∀ u, ∃ t, k u = .next t) : ∃ t, andThen o k = .next t := by
  obtain ⟨u, rfl⟩ := ho
  exact hk u

theorem pushAll_total (bs : List Byte) {s : State} (hs : FillInRange s) :
    ∃ t, pushAll bs s = .next t := by
  induction bs generalizing s with
  | nil => exact ⟨s, rfl⟩
  | cons b bs ih =>
    obtain ⟨u, hu⟩ := execPush_total b hs
    rw [pushAll, hu, andThen_next]
    exact ih (execPush_fillInRange b s u hs hu)

theorem unlessError_total (p : Phase) (s : State) : ∃ t, unlessError p s = .next t := by
  by_cases he : s.err = .noError
  · exact ⟨_, unlessError_of_noError he⟩
  · exact ⟨_, unlessError_of_err he⟩

theorem readyTurn_of_settling {s : State} {c : Bool} {since : Nat} (hp : s.phase = .settle since)
    (hwait : s.elapsed - since < s.settleDelay) : readyTurn c s = .next s := by
  simp only [readyTurn, hp, if_pos hwait]

theorem readyTurn_of_noByte {s : State} {c : Bool} {got since : Nat}
    (hp : s.phase = .read got since) (hrx : s.rx = []) :
    readyTurn c s = noByteTurn since c s := by
  simp only [readyTurn, hp, hrx]

/-- What a step needs of the buffer to answer: R17 item 1, and a byte at each offset below FILL. -/
structure BufferInv (s : State) : Prop where
  fill : FillInRange s
  buf : BufHoldsFill s

theorem bufferInv_of_parserInv {s : State} (h : ParserInv s) : BufferInv s := by
  obtain ⟨hfill, hbuf, _⟩ := h
  exact ⟨hfill, hbuf⟩

theorem step_keeps_bufferInv (s t : State) (hs : BufferInv s) (h : step s = .next t) :
    BufferInv t :=
  ⟨step_keeps fillInRange_partsKeep hs.fill h, step_keeps bufHoldsFill_partsKeep hs.buf h⟩

section Total

variable {s : State} (hs : BufferInv s)
include hs

theorem noByteTurn_total (since : Nat) (c : Bool) : ∃ t, noByteTurn since c s = .next t := by
  unfold noByteTurn
  split
  · exact ⟨_, rfl⟩
  · split
    · exact ⟨_, rfl⟩
    · split
      · exact andThen_total (execVal_total hs.buf) fun _ => ⟨_, rfl⟩
      · exact ⟨_, rfl⟩

theorem readyTurn_total (c : Bool) : ∃ t, readyTurn c s = .next t := by
  cases hp : s.phase with
  | transmit => exact ⟨_, readyTurn_of_transmit hp⟩
  | clear since => exact ⟨_, readyTurn_of_clear hp⟩
  | settle since =>
    rcases Nat.lt_or_ge (s.elapsed - since) s.settleDelay with hwait | hover
    · exact ⟨_, readyTurn_of_settling hp hwait⟩
    · exact ⟨_, readyTurn_of_settled hp hover⟩
  | read got since =>
    cases hrx : s.rx with
    | nil =>
      rw [readyTurn_of_noByte hp hrx]
      exact noByteTurn_total hs since c
    | cons b bs =>
      rw [readyTurn_of_byte hp hrx]
      exact andThen_total (execPush_total b hs.fill) fun _ => ⟨_, rfl⟩
  | validate =>
    rw [readyTurn_of_validate hp]
    exact andThen_total (execVal_total hs.buf) (unlessError_total .decode)
  | decode =>
    rw [readyTurn_of_decode hp]
    exact andThen_total (execDec_total hs.buf) (unlessError_total .check)
  | check => exact ⟨_, readyTurn_of_check hp⟩

theorem hostTurn_total (dt : Nat) (c : Bool) : ∃ t, hostTurn dt c s = .next t := by
  simp only [hostTurn]
  split
  · exact ⟨_, rfl⟩
  · exact readyTurn_total (s := { s with elapsed := s.elapsed + dt }) ⟨hs.fill, hs.buf⟩ c

theorem presentPins_total (rst cv : Bool) (w : CmdWord) : ∃ t, presentPins rst cv w s = .next t :=
  match rst, cv with
  | true, _ => ⟨_, rfl⟩
  | false, false => ⟨_, rfl⟩
  | false, true => presentWord_total w hs.fill hs.buf

theorem runEvent_total (e : Event) : ∃ t, runEvent e s = .next t := by
  cases e with
  | pins rst cv w => exact presentPins_total hs rst cv w
  | frame F =>
    obtain ⟨t, ht⟩ := pushAll_total (frameBytes (frameOfWord F)) hs.fill
    exact ⟨t, (presentFrame_eq F s).trans ht⟩
  | transmit => exact ⟨_, execCommandFrame_eq s⟩
  | serial b => exact ⟨_, rfl⟩
  | turn dt c => exact hostTurn_total hs dt c

theorem step_total : ∃ t, step s = .next t := by
  cases hin : s.inputs with
  | nil => exact ⟨s, step_nil hin⟩
  | cons e es =>
    rw [step_cons hin]
    exact runEvent_total (s := { s with inputs := es }) ⟨hs.fill, hs.buf⟩ e

theorem run_total (n : Nat) : ∃ t, runSteps n s = .next t := by
  induction n generalizing s with
  | zero => exact ⟨s, rfl⟩
  | succ n ih =>
    obtain ⟨u, hu⟩ := step_total hs
    rw [run_succ_of_next hu]
    exact ih (step_keeps_bufferInv s u hs hu)

end Total

/-- Settles O29: the buffer's part of the invariants is enough to answer, holds at reset and is kept
by every step. -/
theorem stepIsTotal : Obligations.StepIsTotal :=
  ⟨fun _ hs => step_total (bufferInv_of_parserInv hs),
    fun x es n => run_total (s := { State.reset with strict := x, inputs := es })
      ⟨Nat.zero_le 9, rfl⟩ n⟩

/-! ### The turns that validate, decode and check (R58, R61, R76) -/

/-- A turn at step 4 or 5 runs its operation, and goes on or abandons the cycle by ERR. -/
theorem turn_orAbandon {s q : State} {ph next : Phase} {f : State → Result} {bs : List Byte}
    {es : List Event} {dt : Nat} {c : Bool}
    (hturn : ∀ s, s.phase = ph → readyTurn c s = andThen (f s) (unlessError next))
    (hf : ∀ o, f (withOutside o s) = .next (withOutside o q))
    (h : HostAt s ph bs (.turn dt c :: es)) :
    ∃ t, f (takeTurn dt es s) = .next t ∧
      (t.err = .noError → step s = .next (goto next t)) ∧
      (t.err ≠ .noError → step s = .next (abandon t)) :=
  ⟨withOutside (takeTurn dt es s) q, hf (takeTurn dt es s),
    fun he => (step_orAbandon hturn hf h).trans (unlessError_of_noError he),
    fun he => (step_orAbandon hturn hf h).trans (unlessError_of_err he)⟩

/-- Settles O41: VAL and DEC answer under the invariants, and the host's report is read from the
parser, which a turn of the check does not change. -/
theorem pollTurnsAfterReading : Obligations.PollTurnsAfterReading := by
  intro s es dt c hin hm hs u
  have hbuf : BufHoldsFill s := (bufferInv_of_parserInv hs).buf
  refine ⟨fun hp => ?validate, fun hp => ?decode, fun hp => ?check⟩
  case validate =>
    obtain ⟨q, hq⟩ := execVal_total hbuf
    exact turn_orAbandon (fun _ => readyTurn_of_validate) (fun o => execVal_withOutside o hq)
      ⟨hm, hp, rfl, hin⟩
  case decode =>
    obtain ⟨q, hq⟩ := execDec_total hbuf
    exact turn_orAbandon (fun _ => readyTurn_of_decode) (fun o => execDec_withOutside o hq)
      ⟨hm, hp, rfl, hin⟩
  case check => exact (step_of_turn ⟨hm, hp, rfl, hin⟩).trans (readyTurn_of_check hp)

end Sys2Proof.Machine

/-!
The reset's and hazards' family (spec/70_reset_and_hazards.md): a frame on a buffer that was not
cleared, the mode of the READY host, and the bytes that wait in the serial channel.
-/

namespace Sys2Proof.Machine

/-! ### The READY host stays READY (R56, R87) -/

/-- The pins reach the parser only, `rst` included: nothing of the host moves (R85, R87). -/
theorem presentPins_sameHost {rst cv : Bool} {w : CmdWord} {s t : State}
    (h : presentPins rst cv w s = .next t) : sameHost s t := by
  rcases presentPins_cases h with ⟨_, rfl⟩ | ⟨_, _, rfl⟩ | ⟨_, _, _, rfl⟩ | ⟨_, _, i, _, hi⟩
  · exact sameHost_refl s
  · exact sameHost_refl t
  · rcases reservedWord_cases s with ⟨_, hkept⟩ | ⟨_, hraised⟩
    · exact hkept.symm ▸ sameHost_refl s
    · exact hraised.symm ▸ sameHost_refl s
  · exact exec_sameHost hi

theorem mode_of_sameHost {s t : State} (h : sameHost s t) : t.mode = s.mode := by
  obtain ⟨_, _, hmode, _⟩ := h
  exact hmode

/-- A turn of the READY host moves it within the poll cycle, never out of its mode (R58). -/
theorem readyMove_mode {s t : State} (h : ReadyMove s t) : t.mode = s.mode := by
  obtain ⟨bs, u, hu, p, r, rfl⟩ := h
  rcases hu with rfl | ⟨i, hi⟩
  · rfl
  · exact mode_of_sameHost (s := { s with rx := bs }) (t := u) (exec_sameHost hi)

theorem runEvent_keeps_ready {e : Event} {s t : State} (hs : s.mode = .ready)
    (h : runEvent e s = .next t) : t.mode = .ready := by
  cases e with
  | pins rst cv w => exact (mode_of_sameHost (presentPins_sameHost h)).trans hs
  | frame F =>
    have hpushes : exec (.responseFrame (frameOfWord F)) s = .next t :=
      (presentFrame_eq F s).symm.trans h
    exact (mode_of_sameHost (exec_sameHost hpushes)).trans hs
  | transmit => exact (mode_of_sameHost (exec_sameHost (i := .commandFrame) h)).trans hs
  | serial b =>
    injection h with h
    exact h ▸ hs
  | turn dt c =>
    rcases hostTurn_cases h with ⟨hwarm, _⟩ | ⟨_, hready⟩
    · cases hs.symm.trans hwarm
    · exact (readyMove_mode (readyTurn_readyMove hready)).trans hs

/-- Settles O39: only a turn writes the mode, and only that of a host that is WARMING_UP. -/
theorem readyHostStaysReady : Obligations.ReadyHostStaysReady := by
  intro s t hs h
  cases hin : s.inputs with
  | nil =>
    injection (step_nil hin).symm.trans h with h
    exact h ▸ hs
  | cons e es =>
    exact runEvent_keeps_ready (s := { s with inputs := es }) hs ((step_cons hin).symm.trans h)

/-! ### A frame without its CLR (R88) -/

theorem execAll_parse_of_err {s : State} (h : s.err ≠ .noError) :
    execAll [.val, .dec] s = .next s := by
  have hval : exec .val s = .next s := execVal_of_err h
  have hdec : exec .dec s = .next s := execDec_of_err h
  simp [execAll, hval, hdec]

/-- Settles O35: the first byte raises E_OVERRUN, and the error makes the parser ignore the other
eight, VAL and DEC. -/
theorem forgottenClrIsLoud : Obligations.ForgottenClrIsLoud := by
  intro f s he hf
  have hraised : (raise .overrun s).err ≠ .noError := by simp
  calc runSteps 11 (loadWords (assemble [.frame (frameBytes f), .parse]) s)
      = execAll ((frameBytes f).map Instr.push ++ [Instr.val, Instr.dec]) s :=
        run_assemble [.frame (frameBytes f), .parse] s
    _ = andThen (pushAll (frameBytes f) s) (execAll [.val, .dec]) := by
        rw [execAll_append, execAll_pushes]
    _ = execAll [.val, .dec] (raise .overrun s) := by
        rw [frameBytes, pushAll_of_full he hf, andThen_next]
    _ = .next (raise .overrun s) := execAll_parse_of_err hraised

/-! ### The serial channel (R3, R92) -/

/-- Settles O47: the event is taken, and the byte queues behind those not yet read. -/
theorem serialByteWaits : Obligations.SerialByteWaits :=
  fun s es b hs =>
    calc step s = runEvent (.serial b) { s with inputs := es } := step_cons hs
      _ = .next (receiveByte b { s with inputs := es }) := rfl

end Sys2Proof.Machine

/-!
The encodings and the step (spec/30_encoding.md, spec/00_scope.md): decoding and encoding are
inverse, what is on a wire is what the step runs, the output ports, and the composed concentration.
-/

namespace Sys2Proof.Machine

/-! ### The nine bytes of a frame and the word they write (R31, R32) -/

/-- The byte at place `k` of a frame word, places counted from the low end. -/
def byteAt (k : Nat) (F : FrameWord) : Byte := F.extractLsb' (8 * k) 8

theorem getLsbD_byteAt (F : FrameWord) (k : Nat) {i : Nat} (hi : i < 8) :
    (byteAt k F).getLsbD i = F.getLsbD (8 * k + i) := by
  simp [byteAt, hi]

theorem byteAt_or (F G : FrameWord) (k : Nat) :
    byteAt k (F ||| G) = byteAt k F ||| byteAt k G := BitVec.extractLsb'_or

/-- A byte put at place `k` of a frame word, the other places 0. -/
def placeByte (k : Nat) (b : Byte) : FrameWord := b.setWidth 72 <<< (8 * k)

/-- A byte put at one place is read at that place, and no other place sees it. -/
theorem byteAt_placeByte (b : Byte) {j : Nat} (k : Nat) (hj : j < 9) :
    byteAt j (placeByte k b) = if j = k then b else 0#8 := by
  apply BitVec.eq_of_getLsbD_eq
  intro i hi
  rw [getLsbD_byteAt _ _ hi, placeByte, BitVec.getLsbD_shiftLeft, BitVec.getLsbD_setWidth]
  rcases Nat.lt_trichotomy j k with hlt | rfl | hgt
  · have hbelow : 8 * j + i < 8 * k := by omega
    simp [hlt.ne, hbelow]
  · have hbit : 8 * j + i < 72 ∧ i < 72 := by omega
    simp [hbit]
  · have habove : 8 ≤ 8 * j + i - 8 * k := by omega
    simp [hgt.ne', BitVec.getLsbD_of_ge b _ habove]

theorem frameToWord_eq (f : Frame) :
    frameToWord f = placeByte 8 f.b0 ||| placeByte 7 f.b1 ||| placeByte 6 f.b2 |||
      placeByte 5 f.b3 ||| placeByte 4 f.b4 ||| placeByte 3 f.b5 ||| placeByte 2 f.b6 |||
      placeByte 1 f.b7 ||| placeByte 0 f.b8 := by
  simp [frameToWord, placeByte]

theorem frameOfWord_eq (F : FrameWord) :
    frameOfWord F = ⟨byteAt 8 F, byteAt 7 F, byteAt 6 F, byteAt 5 F, byteAt 4 F, byteAt 3 F,
      byteAt 2 F, byteAt 1 F, byteAt 0 F⟩ := rfl

theorem frameOfWord_frameToWord (f : Frame) : frameOfWord (frameToWord f) = f := by
  rw [frameOfWord_eq, frameToWord_eq]
  simp [byteAt_or, byteAt_placeByte]

/-- A frame word is determined by its nine bytes. -/
theorem eq_of_byteAt_eq {F G : FrameWord} (h : ∀ k < 9, byteAt k F = byteAt k G) : F = G := by
  apply BitVec.eq_of_getLsbD_eq
  intro i hi
  have hrem : i % 8 < 8 := Nat.mod_lt i (by decide)
  have hbyte := congrArg (fun b => b.getLsbD (i % 8)) (h (i / 8) (by omega))
  simpa only [getLsbD_byteAt _ _ hrem, Nat.div_add_mod] using hbyte

theorem frameOfWord_injective : Function.Injective frameOfWord := by
  intro F G h
  injection h
  apply eq_of_byteAt_eq
  intro k hk
  interval_cases k <;> assumption

theorem frameToWord_frameOfWord (F : FrameWord) : frameToWord (frameOfWord F) = F :=
  frameOfWord_injective (frameOfWord_frameToWord (frameOfWord F))

/-! ### Decoding and encoding are inverse (R31, R32, R35, R36) -/

theorem decode_rx_eq_ok_iff (F : FrameWord) (i : Instr) :
    decode (.rx F) = .ok i ↔
      (frameOfWord F).b0 = Config.marker ∧ i = .responseFrame (frameOfWord F) := by
  simp only [decode, decodeRx]
  split_ifs with hm
  · simp [hm, eq_comm]
  · simp [hm]

theorem decode_tx_eq_ok_iff (F : FrameWord) (i : Instr) :
    decode (.tx F) = .ok i ↔ F = Config.cmdFrame ∧ i = .commandFrame := by
  simp only [decode, decodeTx]
  split_ifs with hF
  · simp [hF, eq_comm]
  · exact ⟨(nomatch ·), fun ⟨h, _⟩ => absurd h hF⟩

theorem decode_responseFrame {f : Frame} (hm : f.b0 = Config.marker) :
    decode (.rx (frameToWord f)) = .ok (.responseFrame f) := by
  rw [decode_rx_eq_ok_iff, frameOfWord_frameToWord]
  exact ⟨hm, rfl⟩

/-- Settles O2: the nine bytes of a frame survive the word they write, DATA of PUSH its command
word. -/
theorem decodeOfEncodeIsIdentity : Obligations.DecodeOfEncodeIsIdentity := by
  intro i hwf
  cases i with
  | clr | val | dec => rfl
  | push d => exact decode_push d
  | responseFrame f => exact decode_responseFrame (beq_iff_eq.mp hwf)
  | commandFrame => rfl

/-- An accepted command word is `{OP, DATA}` of its operation, whose DATA is fixed or its operand. -/
theorem encode_of_decode_cmd {w : CmdWord} {i : Instr} (h : decode (.cmd w) = .ok i) :
    i.wellFormed = true ∧ encode i = .cmd w := by
  rw [decode_cmd_eq] at h
  split_ifs at h with hclr hpush hval hdec <;> injection h with h <;> subst h
  · exact ⟨rfl, congrArg _ ((eq_cmdWordOf_iff w _ _).mpr hclr).symm⟩
  · exact ⟨rfl, congrArg _ ((eq_cmdWordOf_iff w _ _).mpr ⟨hpush, rfl⟩).symm⟩
  · exact ⟨rfl, congrArg _ ((eq_cmdWordOf_iff w _ _).mpr hval).symm⟩
  · exact ⟨rfl, congrArg _ ((eq_cmdWordOf_iff w _ _).mpr hdec).symm⟩

/-- Settles O3: a command word is `{OP, DATA}` of its operation, a frame word is determined by its
nine bytes, and the one accepted transmission is the Command Frame. -/
theorem encodeOfDecodeIsIdentity : Obligations.EncodeOfDecodeIsIdentity := by
  intro w i h
  cases w with
  | cmd w => exact encode_of_decode_cmd h
  | rx F =>
    obtain ⟨hm, rfl⟩ := (decode_rx_eq_ok_iff F i).mp h
    exact ⟨beq_iff_eq.mpr hm, congrArg Wire.rx (frameToWord_frameOfWord F)⟩
  | tx F =>
    obtain ⟨rfl, rfl⟩ := (decode_tx_eq_ok_iff F i).mp h
    exact ⟨rfl, rfl⟩

/-! ### Words written out (R35, R36, R31, R32) -/

/-- Settles O1: the decoder is run on each word. -/
theorem tableWordsDecode : Obligations.TableWordsDecode := by
  unfold Obligations.TableWordsDecode
  decide

/-! ### What is on a wire is what the step runs (R6, R74) -/

/-- The event that presents a wire runs the instruction the wire decodes to. -/
theorem runEvent_eventOfWire {wire : Wire} {i : Instr} (h : decode wire = .ok i) (s : State) :
    runEvent (eventOfWire wire) s = exec i s := by
  cases wire with
  | cmd w => exact presentWord_of_ok h s
  | rx F => simp only [eventOfWire, runEvent, presentFrame, h]
  | tx F =>
    obtain ⟨_, rfl⟩ := (decode_tx_eq_ok_iff F i).mp h
    rfl

theorem step_of_wire {s : State} {es : List Event} {wire : Wire} {i : Instr}
    (hin : s.inputs = eventOfWire wire :: es) (h : decode wire = .ok i) :
    step s = exec i { s with inputs := es } :=
  (step_cons hin).trans (runEvent_eventOfWire h _)

/-- Settles O12: a command word, a received frame and the transmission are the three wires. -/
theorem stepRunsDecodedInstruction : Obligations.StepRunsDecodedInstruction :=
  ⟨fun _ _ w _ hin h => step_of_wire (wire := .cmd w) hin h,
    fun _ _ F _ hin h => step_of_wire (wire := .rx F) hin h,
    fun _ _ _ hin h => step_of_wire (wire := .tx Config.cmdFrame) hin h⟩

theorem decodeTableWord_eq_some {nbits w : Nat} {i : Instr} (h : decodeTableWord nbits w = some i) :
    ∃ wire, tableWire nbits w = some wire ∧ decode wire = .ok i := by
  obtain ⟨wire, hwire, hdec⟩ := Option.bind_eq_some_iff.mp h
  refine ⟨wire, hwire, ?_⟩
  cases hd : decode wire with
  | ok j => simpa [hd, Except.toOption] using hdec
  | error e => simp [hd, Except.toOption] at hdec

/-- Settles O13: the word is put at the head of the schedule as the event of its wire. -/
theorem fetchWordRunsNext : Obligations.FetchWordRunsNext := by
  intro s nbits w i h
  obtain ⟨wire, hwire, hdec⟩ := decodeTableWord_eq_some h
  have hplaced : s.withFetchWord nbits w = present (eventOfWire wire) s := by
    simp only [State.withFetchWord, presentTableWord, hwire]
  rw [hplaced]
  exact step_of_wire rfl hdec

/-- A step changes nothing, or runs the next event of the schedule. -/
theorem step_cases {s t : State} (h : step s = .next t) :
    (s.inputs = [] ∧ t = s) ∨
      ∃ e es, s.inputs = e :: es ∧ runEvent e { s with inputs := es } = .next t := by
  cases hin : s.inputs with
  | nil =>
    injection (step_nil hin).symm.trans h with h
    exact .inl ⟨rfl, h.symm⟩
  | cons e es => exact .inr ⟨e, es, rfl, (step_cons hin).symm.trans h⟩

/-- Settles O10: the pins with `cmd_valid` = 0, and the schedule that is empty. -/
theorem noOperationChangesNothing : Obligations.NoOperationChangesNothing :=
  ⟨fun _ _ _ hin => step_of_noOperation hin, fun _ hin => step_nil hin⟩

/-! ### The output ports (R7, R13, R70) -/

theorem code_ne_seven (e : Err) : e.code ≠ 7 := by
  cases e <;> decide

theorem code_eq_zero_iff (e : Err) : e.code = 0 ↔ e = .noError := by
  cases e <;> decide

/-- Settles O14: FULL compares FILL with 9, and no error has the code 7. -/
theorem outputsShowRegisters : Obligations.OutputsShowRegisters :=
  fun s => ⟨rfl, full_iff s, rfl, rfl, rfl, rfl, rfl, rfl, code_eq_zero_iff s.err,
    code_ne_seven s.err⟩

/-! ### The composed concentration in bits (R51) -/

theorem concentration_eq_append (hi lo : Byte) : concentration hi lo = hi ++ lo := by
  apply BitVec.eq_of_toNat_eq
  rw [concentration_toNat, BitVec.toNat_append, ← Nat.shiftLeft_add_eq_or_of_lt lo.isLt]
  omega

theorem concentration_eq_or (hi lo : Byte) :
    concentration hi lo = (hi.setWidth 16 <<< 8) ||| lo.setWidth 16 := by
  apply BitVec.eq_of_toNat_eq
  have hhi : (hi.setWidth 16 <<< 8).toNat = hi.toNat <<< 8 := by
    rw [BitVec.toNat_shiftLeft, BitVec.toNat_setWidth]
    omega
  have hlo : (lo.setWidth 16).toNat = lo.toNat := BitVec.toNat_setWidth_of_le (by decide)
  rw [concentration_eq_append, BitVec.toNat_append, BitVec.toNat_or, hhi, hlo]

/-- Settles O7: the value is the two bytes put side by side. -/
theorem concentrationIsBigEndian : Obligations.ConcentrationIsBigEndian := by
  refine ⟨fun hi lo => ⟨concentration_toNat hi lo, by omega, ?high, ?low,
    concentration_eq_or hi lo⟩, by decide, by decide, by decide⟩
  case high =>
    rw [concentration_eq_append]
    exact BitVec.extractLsb'_append_eq_left
  case low =>
    rw [concentration_eq_append]
    exact BitVec.extractLsb'_append_eq_right

end Sys2Proof.Machine

/-!
The invariants (spec/10_state.md sections 6 and 8): every step keeps them, every state reached from
reset meets them, no state that meets them makes an instruction stop, and an error holds until it is
cleared.
-/

namespace Sys2Proof.Machine

/-! ### The parser's invariants, register by register (R15, R17) -/

/-- The invariants are of the parser's registers and STRICT only. -/
theorem parserInv_congr {s t : State} (hparser : sameParser s t) (hstrict : t.strict = s.strict)
    (hs : ParserInv s) : ParserInv t := by
  obtain ⟨hbuf, hfill, hvd, hcsum, hcsok, hppm, hpv, herr⟩ := hparser
  have hread : ∀ a, bufRead t a = bufRead s a := bufRead_congr hfill hbuf
  simpa only [ParserInv, FillInRange, BufHoldsFill, ValidatedMeansChecked,
    NotValidatedMeansNothing, ReadingMeansDecoded, ErrorMeansCause, bufCksum_congr hread,
    bufConcentration_congr hread, hread, hbuf, hfill, hvd, hcsum, hcsok, hppm, hpv, herr, hstrict]
    using hs

/-- Where no error is set R17 items 5 to 8 ask for nothing. -/
theorem errorMeansCause_of_noError {s : State} (he : s.err = .noError) : ErrorMeansCause s := by
  simp [ErrorMeansCause, he]

/-- A clear parser has validated nothing, holds no reading and no error (R16). -/
theorem parserInv_of_parserClear {s : State} (h : parserClear s) : ParserInv s := by
  obtain ⟨hbuf, hfill, hvd, hcsum, hcsok, hppm, hpv, herr⟩ := h
  have hfillInRange : FillInRange s := by simp [FillInRange, hfill, State.reset]
  have hbufHoldsFill : BufHoldsFill s := by simp [BufHoldsFill, hbuf, hfill, State.reset]
  exact ⟨hfillInRange, hbufHoldsFill, fun hv => Bool.noConfusion (hvd.symm.trans hv),
    fun _ => ⟨hcsok, hpv, hcsum⟩, ⟨fun h => Bool.noConfusion (hpv.symm.trans h), fun _ => hppm⟩,
    errorMeansCause_of_noError herr⟩

/-- Before VAL there is no reading (R17 items 3 and 4). -/
theorem reading_none_of_not_validated {s : State} (hs : ParserInv s) (hv : s.vd = false) :
    s.pv = false := by
  obtain ⟨_, _, _, hnothing, _, _⟩ := hs
  obtain ⟨_, hpv, _⟩ := hnothing hv
  exact hpv

theorem room_of_not_full {s : State} (hs : ParserInv s) (hf : s.fill ≠ 9#4) :
    s.fill.toNat < 9 :=
  Nat.lt_of_le_of_ne (bufferInv_of_parserInv hs).fill (mt (fill_eq_nine_iff s).mpr hf)

theorem not_validated_of_room {s : State} (hs : ParserInv s) (hroom : s.fill.toNat < 9) :
    s.vd = false := by
  obtain ⟨_, _, hchecked, _, _, _⟩ := hs
  refine Bool.eq_false_of_not_eq_true fun hv => ?_
  obtain ⟨hfull, _⟩ := hchecked hv
  exact absurd ((fill_eq_nine_iff s).mp hfull) hroom.ne

/-- An error entered drops the reading, so only its own cause is left to show (R72). -/
theorem raise_parserInv {e : Err} {s : State} (hs : ParserInv s)
    (hcause : ErrorMeansCause (raise e s)) : ParserInv (raise e s) := by
  obtain ⟨hfill, hbuf, hchecked, hnothing, _, _⟩ := hs
  refine ⟨hfill, hbuf, hchecked, fun hv => ?_, ⟨fun hpv => ?_, fun _ => rfl⟩, hcause⟩
  · obtain ⟨hcsok, _, hcsum⟩ := hnothing hv
    exact ⟨hcsok, rfl, hcsum⟩
  · cases hpv

/-- A byte is stored only in a frame not yet validated (R17 item 2). -/
theorem storeByte_parserInv {s : State} (d : Byte) (hs : ParserInv s) (he : s.err = .noError)
    (hroom : s.fill.toNat < 9) : ParserInv (storeByte d s) := by
  have hv : s.vd = false := not_validated_of_room hs hroom
  have hpv : s.pv = false := reading_none_of_not_validated hs hv
  obtain ⟨_, hbuf, _, hnothing, ⟨_, habsent⟩, _⟩ := hs
  refine ⟨?_, storeByte_bufHoldsFill d hroom hbuf, fun h => ?_, hnothing,
    ⟨fun h => ?_, habsent⟩, errorMeansCause_of_noError he⟩
  · rw [FillInRange, storeByte_fill_toNat d hroom]
    exact hroom
  · exact absurd h (by simp [hv])
  · exact absurd h (by simp [hpv])

/-- The first VAL that finds the marker records the checksum of what is in the buffer (R45). -/
theorem recordChecksum_parserInv {s : State} {c b8 : Byte} (hs : ParserInv s)
    (hv : s.vd = false) (he : s.err = .noError) (hf : s.fill = 9#4)
    (h0 : bufRead s 0 = some Config.marker) (hc : bufCksum s = some c)
    (h8 : bufRead s 8 = some b8) : ParserInv (recordChecksum c (checksumOk c b8) s) := by
  have hpv : s.pv = false := reading_none_of_not_validated hs hv
  obtain ⟨hfill, hbuf, _, _, ⟨_, habsent⟩, _⟩ := hs
  refine ⟨hfill, hbuf, fun _ => ⟨hf, h0, rfl, hc.symm, ?_⟩, fun h => ?_,
    ⟨fun h => ?_, habsent⟩, errorMeansCause_of_noError he⟩
  · rw [bufRead_recordChecksum, h8]
    exact decide_eq_decide.mpr Option.some_inj.symm
  · cases h
  · exact absurd h (by simp [hpv])

/-- DEC's reading is composed from what is in the buffer, under a checksum that matched unless
STRICT = 0 (R50). -/
theorem recordPpm_parserInv {s : State} {v : PpmWord} (hs : ParserInv s) (he : s.err = .noError)
    (hv : s.vd = true) (hpass : s.strict = true → s.csok = true)
    (hp : bufConcentration s = some v) : ParserInv (recordPpm v s) := by
  obtain ⟨hfill, hbuf, hchecked, _, _, _⟩ := hs
  refine ⟨hfill, hbuf, hchecked, fun h => ?_, ⟨fun _ => ⟨hv, he, rfl, hp.symm, hpass⟩, fun h => ?_⟩,
    errorMeansCause_of_noError he⟩
  · exact absurd (hv.symm.trans h) (by decide)
  · cases h

/-! ### Every operation keeps the invariants -/

theorem execPush_parserInv (d : Byte) (s t : State) (hs : ParserInv s)
    (h : execPush d s = .next t) : ParserInv t := by
  rcases execPush_cases h with ⟨_, rfl⟩ | ⟨_, hf, rfl⟩ | ⟨he, hroom, rfl⟩
  case inl => exact hs
  case inr.inl => exact raise_parserInv hs (by simp [ErrorMeansCause, hf])
  case inr.inr => exact storeByte_parserInv d hs he hroom

theorem execVal_parserInv (s t : State) (hs : ParserInv s) (h : execVal s = .next t) :
    ParserInv t := by
  cases hv : s.vd with
  | true =>
    injection (execVal_of_validated hs hv).symm.trans h with h
    exact h ▸ hs
  | false =>
    rcases execVal_cases h with ⟨_, rfl⟩ | ⟨_, hf, rfl⟩ | ⟨_, hf, ⟨b0, h0, hm⟩, rfl⟩ |
      ⟨he, hf, h0, c, b8, hc, h8, rfl⟩
    · exact hs
    · have hroom : s.fill.toNat < 9 := room_of_not_full hs hf
      exact raise_parserInv hs (by simp [ErrorMeansCause, hroom])
    · exact raise_parserInv hs (by simp [ErrorMeansCause, hf, hv, bufRead_raise, h0, hm])
    · exact recordChecksum_parserInv hs hv he hf h0 hc h8

theorem execDec_parserInv (s t : State) (hs : ParserInv s) (h : execDec s = .next t) :
    ParserInv t := by
  rcases execDec_cases h with ⟨_, rfl⟩ | ⟨_, hf, rfl⟩ | ⟨_, hf, hv, rfl⟩ |
    ⟨_, _, hv, hcsok, hstrict, rfl⟩ | ⟨he, _, hv, hpass, v, hp, rfl⟩
  · exact hs
  · have hroom : s.fill.toNat < 9 := room_of_not_full hs hf
    exact raise_parserInv hs (by simp [ErrorMeansCause, hroom])
  · exact raise_parserInv hs (by simp [ErrorMeansCause, hf, hv])
  · exact raise_parserInv hs (by simp [ErrorMeansCause, hv, hcsok, hstrict])
  · exact recordPpm_parserInv hs he hv hpass hp

theorem reservedWord_parserInv (s : State) (hs : ParserInv s) : ParserInv (reservedWord s) := by
  rcases reservedWord_cases s with ⟨_, h⟩ | ⟨_, h⟩ <;> rw [h]
  · exact hs
  · exact raise_parserInv hs (by simp [ErrorMeansCause])

theorem parserInv_partsKeep : PartsKeep ParserInv where
  outside _ _ hparser hstrict hs := parserInv_congr hparser hstrict hs
  reset s _ := parserInv_of_parserClear (resetParser_parserClear s)
  push := execPush_parserInv
  val := execVal_parserInv
  dec := execDec_parserInv
  reserved := reservedWord_parserInv

/-- Settles O26: the four operations, a reserved word and reset keep the invariants, so a step
does. -/
theorem stepKeepsParserInvariant : Obligations.StepKeepsParserInvariant :=
  fun _ _ hs h => step_keeps parserInv_partsKeep hs h

/-- Settles O25: the reset state is a clear parser beside a host that reports the sentinel. -/
theorem resetMeetsInvariants : Obligations.ResetMeetsInvariants :=
  ⟨parserInv_of_parserClear (sameParser_refl State.reset), Memory.wf_nil, .inl rfl, fun _ => rfl⟩

/-! ### What holds a value (R15) -/

/-- Settles O28: the buffer lists the offsets below FILL, and VD and PV stand for CSUM and PPM. -/
theorem valuesPresentExactlyWhenValid : Obligations.ValuesPresentExactlyWhenValid := by
  intro s ⟨_, hbuf, hchecked, hnothing, hreading, _⟩
  have hlisted (a : Nat) : (Memory.read s.buf a).isSome ↔ a < s.fill.toNat := by
    rw [Memory.read_isSome_iff, hbuf, List.mem_range]
  refine ⟨fun a => ?bufRead, hlisted, ?csum, ?ppm⟩
  case bufRead =>
    by_cases ha : a < s.fill.toNat
    · rw [bufRead, if_pos ha, hlisted]
    · simp [bufRead, ha]
  case csum =>
    cases hv : s.vd with
    | true =>
      obtain ⟨_, _, hcsum, _⟩ := hchecked hv
      exact iff_of_true hcsum rfl
    | false =>
      obtain ⟨_, _, hcsum⟩ := hnothing hv
      simp [hcsum]
  case ppm =>
    obtain ⟨hpresent, habsent⟩ := hreading
    cases hpv : s.pv with
    | true =>
      obtain ⟨_, _, hppm, _⟩ := hpresent hpv
      exact iff_of_true hppm rfl
    | false => simp [habsent hpv]

/-! ### The canonical form of the buffer (R20) -/

/-- A byte is stored at an offset below 9; nothing else writes the buffer but to empty it. -/
theorem bufCanonical_partsKeep : PartsKeep fun s => Memory.wf s.buf where
  outside s t hparser _ hs := by
    obtain ⟨hbuf, _⟩ := hparser
    rwa [hbuf]
  reset _ _ := Memory.wf_nil
  push d s t hs h := by
    rcases execPush_cases h with ⟨_, rfl⟩ | ⟨_, _, rfl⟩ | ⟨_, hroom, rfl⟩
    case inl => exact hs
    case inr.inl => exact hs
    case inr.inr => exact Memory.write_wf hroom hs
  val s t hs h := by rwa [execVal_buf h]
  dec s t hs h := by rwa [execDec_buf h]
  reserved s hs := by rwa [reservedWord_buf]

/-- Settles O30: PUSH writes at FILL, which is below 9 where a byte is stored. -/
theorem stepKeepsBufferCanonical : Obligations.StepKeepsBufferCanonical :=
  fun _ _ hs h => step_keeps bufCanonical_partsKeep hs h

/-! ### An error holds until it is cleared (R17 item 10, R73) -/

/-- What a step may do to the parser while ERR is set: nothing, or clear it. -/
def HeldOrCleared (s t : State) : Prop := sameParser s t ∨ parserClear t

theorem exec_heldOrCleared {i : Instr} {s t : State} (he : s.err ≠ .noError)
    (h : exec i s = .next t) : HeldOrCleared s t := by
  have hheld (hkeeps : exec i s = .next s) : HeldOrCleared s t := by
    injection hkeeps.symm.trans h with h
    exact .inl (h ▸ sameParser_refl s)
  cases i with
  | clr =>
    injection h with h
    exact .inr (h ▸ resetParser_parserClear s)
  | push d => exact hheld (execPush_of_err he)
  | val => exact hheld (execVal_of_err he)
  | dec => exact hheld (execDec_of_err he)
  | responseFrame f => exact hheld (pushAll_of_err he (frameBytes f))
  | commandFrame =>
    injection h with h
    exact .inl (h ▸ sameParser_refl s)

theorem presentPins_heldOrCleared {rst cv : Bool} {w : CmdWord} {s t : State}
    (he : s.err ≠ .noError) (h : presentPins rst cv w s = .next t) : HeldOrCleared s t := by
  rcases presentPins_cases h with ⟨_, rfl⟩ | ⟨_, _, rfl⟩ | ⟨_, _, _, rfl⟩ | ⟨_, _, i, _, hi⟩
  · exact .inr (resetParser_parserClear s)
  · exact .inl (sameParser_refl t)
  · exact .inl (by rw [reservedWord_of_err he]; exact sameParser_refl s)
  · exact exec_heldOrCleared he hi

theorem readyMove_heldOrCleared {s t : State} (he : s.err ≠ .noError) (h : ReadyMove s t) :
    HeldOrCleared s t := by
  obtain ⟨bs, u, hu, p, r, rfl⟩ := h
  rcases hu with rfl | ⟨i, hi⟩
  · exact .inl (sameParser_refl s)
  · exact exec_heldOrCleared (s := { s with rx := bs }) (t := u) he hi

theorem warmUpTurn_sameParser (s : State) : sameParser s (warmUpTurn s) := by
  unfold warmUpTurn
  split <;> exact sameParser_refl s

theorem runEvent_heldOrCleared {e : Event} {s t : State} (he : s.err ≠ .noError)
    (h : runEvent e s = .next t) : HeldOrCleared s t := by
  cases e with
  | pins rst cv w => exact presentPins_heldOrCleared he h
  | frame F =>
    have hpushes : exec (.responseFrame (frameOfWord F)) s = .next t :=
      (presentFrame_eq F s).symm.trans h
    exact exec_heldOrCleared he hpushes
  | transmit => exact exec_heldOrCleared (i := .commandFrame) he h
  | serial b =>
    injection h with h
    exact .inl (h ▸ sameParser_refl s)
  | turn dt c =>
    rcases hostTurn_cases h with ⟨_, rfl⟩ | ⟨_, hready⟩
    · exact .inl (warmUpTurn_sameParser { s with elapsed := s.elapsed + dt })
    · exact readyMove_heldOrCleared (s := { s with elapsed := s.elapsed + dt }) he
        (readyTurn_readyMove hready)

/-- Settles O24: every instruction but CLR is ignored, and CLR and reset clear the parser. -/
theorem errorHoldsUntilCleared : Obligations.ErrorHoldsUntilCleared := by
  intro s t he h
  rcases step_cases h with ⟨_, rfl⟩ | ⟨e, es, _, hevent⟩
  · exact .inl (sameParser_refl t)
  · exact runEvent_heldOrCleared (s := { s with inputs := es }) he hevent

/-! ### Every state reached from reset (R17) -/

theorem reachable_parserInv {x : Bool} {es : List Event} {n : Nat} {s : State}
    (h : runSteps n { State.reset with strict := x, inputs := es } = .next s) : ParserInv s :=
  run_keeps stepKeepsParserInvariant n
    (s := { State.reset with strict := x, inputs := es })
    (parserInv_of_parserClear (sameParser_refl State.reset)) h

theorem bufConcentration_eq_some {s : State} {v : PpmWord} (h : bufConcentration s = some v) :
    ∃ hi lo, bufRead s 2 = some hi ∧ bufRead s 3 = some lo ∧
      v.toNat = hi.toNat * 256 + lo.toNat := by
  unfold bufConcentration at h
  split at h
  · rename_i hi lo hhi hlo
    injection h with h
    exact ⟨hi, lo, hhi, hlo, h ▸ concentration_toNat hi lo⟩
  · cases h

/-- R17 item 2, the two checksums named. -/
theorem validated_spelled_out {s : State} (hs : ParserInv s) (hv : s.vd = true) :
    s.fill = 9#4 ∧ bufRead s 0 = some 0xFF#8 ∧
      ∃ c b8, s.csum = some c ∧ bufCksum s = some c ∧ bufRead s 8 = some b8 ∧
        s.csok = decide (c = b8) := by
  obtain ⟨_, hbuf, hchecked, _, _, _⟩ := hs
  obtain ⟨hf, h0, hsome, hcsum, hcsok⟩ := hchecked hv
  obtain ⟨c, hc⟩ := Option.isSome_iff_exists.mp hsome
  obtain ⟨b8, h8⟩ := bufRead_of_full hbuf hf (a := 8) (by decide)
  refine ⟨hf, h0, c, b8, hc, hcsum ▸ hc, h8, ?_⟩
  rw [hcsok, hc, h8]
  exact decide_eq_decide.mpr Option.some_inj

/-- R17 item 4, the reading and its two bytes named. -/
theorem reading_spelled_out {s : State} (hs : ParserInv s) (hpv : s.pv = true) :
    s.vd = true ∧ s.err = .noError ∧
      (∃ v hi lo, s.ppm = some v ∧ bufRead s 2 = some hi ∧ bufRead s 3 = some lo ∧
        v.toNat = hi.toNat * 256 + lo.toNat) ∧
      (s.strict = true → s.csok = true) := by
  obtain ⟨_, _, _, _, ⟨hreading, _⟩, _⟩ := hs
  obtain ⟨hv, he, hsome, hppm, hpass⟩ := hreading hpv
  obtain ⟨v, hppmv⟩ := Option.isSome_iff_exists.mp hsome
  obtain ⟨hi, lo, hhi, hlo, hvalue⟩ := bufConcentration_eq_some (hppm ▸ hppmv)
  exact ⟨hv, he, ⟨v, hi, lo, hppmv, hhi, hlo, hvalue⟩, hpass⟩

/-- R17 item 5, the byte found in place of the marker named. -/
theorem markerError_spelled_out {s : State} (hs : ParserInv s) (he : s.err = .marker) :
    s.fill = 9#4 ∧ (∃ b0, bufRead s 0 = some b0 ∧ b0 ≠ 0xFF#8) ∧ s.vd = false := by
  obtain ⟨_, hbuf, _, _, _, hmarker, _⟩ := hs
  obtain ⟨hf, h0, hv⟩ := hmarker he
  obtain ⟨b0, hb0⟩ := bufRead_of_full hbuf hf (a := 0) (by decide)
  exact ⟨hf, ⟨b0, hb0, fun hm => h0 (hb0.trans (congrArg some hm))⟩, hv⟩

/-- Settles O27: items 1 to 9 are the invariants kept along the run, item 10 is the step's own. -/
theorem reachableStatesMeetR17 : Obligations.ReachableStatesMeetR17 := by
  intro x es n s hrun
  have hs : ParserInv s := reachable_parserInv hrun
  have ⟨hfill, _, _, hnothing, _, _, hchecksum, hshort, hoverrun, horder⟩ := hs
  refine ⟨hfill, validated_spelled_out hs, fun hv => ?_, reading_spelled_out hs,
    markerError_spelled_out hs, hchecksum, hshort, hoverrun, horder, code_ne_seven s.err,
    fun t he h => errorHoldsUntilCleared s t he h⟩
  obtain ⟨hcsok, hpv, _⟩ := hnothing hv
  exact ⟨hcsok, hpv⟩

/-! ### Where the model stops (log entry 7) -/

theorem execPush_of_outOfRange {d : Byte} {s : State} (he : s.err = .noError)
    (hout : 9 < s.fill.toNat) : execPush d s = .fault (.noSuchOffset s.fill.toNat) := by
  have hroom : ¬ s.fill.toNat < 9 := by omega
  simp [execPush, he, full_eq_false hout.ne', hroom]

theorem execVal_of_missing_marker {s : State} (he : s.err = .noError) (hf : s.fill = 9#4)
    (h0 : bufRead s 0 = none) : execVal s = .fault (.noValue 0) := by
  simp [execVal, he, (full_iff s).mpr hf, h0]

theorem execVal_of_missing_summand {s : State} (he : s.err = .noError) (hf : s.fill = 9#4)
    (h0 : bufRead s 0 = some Config.marker) (hc : bufCksum s = none) :
    execVal s = .fault (.noValue 1) := by
  simp [execVal, he, (full_iff s).mpr hf, h0, hc]

theorem execVal_of_missing_checksum {s : State} {c : Byte} (he : s.err = .noError)
    (hf : s.fill = 9#4) (h0 : bufRead s 0 = some Config.marker) (hc : bufCksum s = some c)
    (h8 : bufRead s 8 = none) : execVal s = .fault (.noValue 8) := by
  simp [execVal, he, (full_iff s).mpr hf, h0, hc, h8]

theorem execDec_of_missing_pair {s : State} (he : s.err = .noError) (hf : s.fill = 9#4)
    (hv : s.vd = true) (hpass : s.strict = false ∨ s.csok = true)
    (hp : bufConcentration s = none) : execDec s = .fault (.noValue 2) := by
  have haccepted : ¬ (s.csok = false ∧ s.strict = true) := by
    rcases hpass with h | h <;> simp [h]
  simp [execDec, he, (full_iff s).mpr hf, hv, haccepted, hp]

/-- Every instruction answers where the buffer lists what FILL counts. -/
theorem exec_total (i : Instr) {s : State} (hs : BufferInv s) : ∃ t, exec i s = .next t := by
  cases i with
  | clr => exact ⟨_, execClr_eq s⟩
  | push d => exact execPush_total d hs.fill
  | val => exact execVal_total hs.buf
  | dec => exact execDec_total hs.buf
  | responseFrame f => exact pushAll_total (frameBytes f) hs.fill
  | commandFrame => exact ⟨_, execCommandFrame_eq s⟩

/-- Settles O16: the stops, and that under the invariants every instruction answers a next state. -/
theorem stopsOutsideTheInvariant : Obligations.StopsOutsideTheInvariant := by
  refine ⟨fun d s he hout => execPush_of_outOfRange he hout, ?frame,
    fun s he hf h0 => execVal_of_missing_marker he hf h0,
    fun s he hf h0 hc => execVal_of_missing_summand he hf h0 hc,
    fun s c he hf h0 hc h8 => execVal_of_missing_checksum he hf h0 hc h8,
    fun s he hf hv hpass hp => execDec_of_missing_pair he hf hv hpass hp, ?invariant⟩
  case frame =>
    intro f s he hout
    have hfirst : execPush f.b0 s = .fault (.noSuchOffset s.fill.toNat) :=
      execPush_of_outOfRange he hout
    show pushAll (frameBytes f) s = _
    rw [frameBytes, pushAll, hfirst, andThen_fault]
  case invariant =>
    intro i s r hfault hs
    obtain ⟨t, ht⟩ := exec_total i (bufferInv_of_parserInv hs)
    cases hfault.symm.trans ht

end Sys2Proof.Machine

/-!
The host (spec/43_host_poll_cycle.md): the warm-up, the turns up to reading, the read that waits for
ever, and what is reported.
-/

namespace Sys2Proof.Machine

/-! ### Turns in which the host only waits (R57, R63) -/

theorem takeTurn_takeTurn (m n : Nat) (es es' : List Event) (s : State) :
    takeTurn n es' (takeTurn m es s) = takeTurn (m + n) es' s := by
  simp only [takeTurn, Nat.add_assoc]

/-- Within `limit` time units a turn of the host moves nothing but its clock. -/
def IdleFor (limit : Nat) (s : State) : Prop :=
  ∀ n c es, n ≤ limit → hostTurn n c { s with inputs := es } = .next (takeTurn n es s)

theorem step_of_idle {s : State} {es : List Event} {dt limit : Nat} {c : Bool}
    (hin : s.inputs = .turn dt c :: es) (hidle : IdleFor limit s) (hdt : dt ≤ limit) :
    step s = .next (takeTurn dt es s) :=
  (step_cons hin).trans (hidle dt c es hdt)

/-- Time gone by is taken off the time the host still waits. -/
theorem idleFor_takeTurn {s : State} {dt limit : Nat} (hidle : IdleFor (dt + limit) s)
    (es : List Event) : IdleFor limit (takeTurn dt es s) := by
  intro n c es' hn
  have hlater := hidle (dt + n) c es' (Nat.add_le_add_left hn dt)
  simpa only [hostTurn, takeTurn, Nat.add_assoc] using hlater

/-- Turns within the limit, however many, move the clock by their sum. -/
theorem run_idleTurns (ts : List (Nat × Bool)) (es : List Event) {s : State}
    (hidle : IdleFor (ts.map Prod.fst).sum s) :
    runSteps ts.length { s with inputs := ts.map (fun p => .turn p.1 p.2) ++ es } =
      .next (takeTurn (ts.map Prod.fst).sum es s) := by
  induction ts generalizing s with
  | nil => rfl
  | cons p ts ih =>
    have hfirst := step_of_idle
      (s := { s with inputs := .turn p.1 p.2 :: (ts.map (fun p => .turn p.1 p.2) ++ es) })
      rfl hidle (Nat.le_add_right p.1 _)
    have hrest := ih (idleFor_takeTurn hidle (ts.map (fun p => .turn p.1 p.2) ++ es))
    rw [takeTurn_takeTurn] at hrest
    exact (run_succ_of_next hfirst ts.length).trans hrest

/-! ### The warm-up (R56, R57) -/

theorem warmUpTurn_eq (s : State) :
    warmUpTurn s =
      { s with report := -1, mode := if s.elapsed > s.warmup then .ready else s.mode } := by
  unfold warmUpTurn
  split <;> rfl

theorem hostTurn_of_warmingUp {s : State} (hm : s.mode = .warmingUp) (dt : Nat) (c : Bool) :
    hostTurn dt c s = .next (warmUpTurn { s with elapsed := s.elapsed + dt }) := by
  simp only [hostTurn, hm]

theorem step_of_warmUp {s : State} {es : List Event} {dt : Nat} {c : Bool}
    (hin : s.inputs = .turn dt c :: es) (hm : s.mode = .warmingUp) :
    step s = .next { s with
      inputs := es
      elapsed := s.elapsed + dt
      report := -1
      mode := if s.elapsed + dt > s.warmup then .ready else .warmingUp } := by
  have hturn : step s = hostTurn dt c { s with inputs := es } := step_cons hin
  rw [hturn, hostTurn_of_warmingUp (s := { s with inputs := es }) hm, warmUpTurn_eq, hm]

theorem idleFor_warmUp {s : State} {n : Nat} (hm : s.mode = .warmingUp) (hr : s.report = -1)
    (hn : s.elapsed + n ≤ s.warmup) : IdleFor n s := by
  intro k c es hk
  have hin : ¬ s.elapsed + k > s.warmup := by omega
  rw [hostTurn_of_warmingUp (s := { s with inputs := es }) hm, warmUpTurn_eq, takeTurn]
  simp only [if_neg hin, ← hr]

/-- Settles O38: the host is idle until the elapsed time exceeds WARMUP. -/
theorem warmUpWindowIsSilent : Obligations.WarmUpWindowIsSilent :=
  fun _ es ts hm hr hle => run_idleTurns ts es (idleFor_warmUp hm hr hle)

/-! ### A read without a byte (R63) -/

section NoByte

variable {s : State} {c : Bool} {since limit : Nat}

theorem noByteTurn_of_noTimeout (hto : s.readTimeout = none) : noByteTurn since c s = .next s := by
  simp only [noByteTurn, hto]

theorem noByteTurn_of_waiting (hto : s.readTimeout = some limit)
    (hwait : s.elapsed - since < limit) : noByteTurn since c s = .next s := by
  simp only [noByteTurn, hto, if_pos hwait]

theorem noByteTurn_of_over (hto : s.readTimeout = some limit)
    (hover : limit ≤ s.elapsed - since) :
    noByteTurn since c s =
      if c then andThen (execVal s) fun t => .next (abandon t) else .next (abandon s) := by
  simp only [noByteTurn, hto, if_neg (Nat.not_lt.mpr hover)]
  rfl

end NoByte

theorem idleFor_reading {s : State} {got since : Nat} (hm : s.mode = .ready)
    (hp : s.phase = .read got since) (hrx : s.rx = []) (hto : s.readTimeout = none) (n : Nat) :
    IdleFor n s := by
  intro k c es _
  have hturn : hostTurn k c { s with inputs := es } = readyTurn c (takeTurn k es s) := by
    simp only [hostTurn, hm, takeTurn]
  rw [hturn, readyTurn_of_noByte (s := takeTurn k es s) hp hrx]
  exact noByteTurn_of_noTimeout hto

/-- Settles O44: the reading host without READ_TIMEOUT is idle for any time. -/
theorem referenceHostHangs : Obligations.ReferenceHostHangs :=
  fun _ es ts _ _ hm hp hrx hto => run_idleTurns ts es (idleFor_reading hm hp hrx hto _)

/-! ### The turns of the READY host up to reading (R58, R63) -/

/-- Settles O40: the turn at each step of the cycle, and the ways a turn without a byte ends. -/
theorem pollTurnsUpToReading : Obligations.PollTurnsUpToReading := by
  intro s es dt c hin hm now u
  have hturn : step s = readyTurn c u := step_of_turn ⟨hm, rfl, rfl, hin⟩
  have hnoByte {got since : Nat} (hp : s.phase = .read got since) (hrx : s.rx = []) :
      step s = noByteTurn since c u := hturn.trans (readyTurn_of_noByte (s := u) hp hrx)
  refine ⟨?transmit, ?clear, ?settling, ?settled, ?byte, ?hang, ?wait, ?giveUp, ?giveUpByVal,
    ?giveUpShort⟩
  case transmit =>
    exact fun hp => hturn.trans (readyTurn_of_transmit (s := u) hp)
  case clear =>
    exact fun since hp =>
      ⟨resetParser u, execClr_eq u, hturn.trans (readyTurn_of_clear (s := u) hp)⟩
  case settling =>
    exact fun since hp hwait => hturn.trans (readyTurn_of_settling (s := u) hp hwait)
  case settled =>
    exact fun since hp hover => hturn.trans (readyTurn_of_settled (s := u) hp hover)
  case byte =>
    intro got since b bs hp hrx hfill
    obtain ⟨t, ht⟩ := execPush_total b (s := { u with rx := bs }) hfill
    refine ⟨t, ht, ?_⟩
    rw [hturn, readyTurn_of_byte (s := u) hp hrx, ht]
    rfl
  case hang =>
    exact fun got since hp hrx hto => (hnoByte hp hrx).trans (noByteTurn_of_noTimeout (s := u) hto)
  case wait =>
    exact fun got since limit hp hrx hto hwait =>
      (hnoByte hp hrx).trans (noByteTurn_of_waiting (s := u) hto hwait)
  case giveUp =>
    intro got since limit hp hrx hto hover hc
    rw [hnoByte hp hrx, noByteTurn_of_over (s := u) hto hover, hc]
    rfl
  case giveUpByVal =>
    intro got since limit hp hrx hto hover hc t ht
    have ht : execVal u = .next t := ht
    rw [hnoByte hp hrx, noByteTurn_of_over (s := u) hto hover, hc, ht]
    rfl
  case giveUpShort =>
    intro got since limit hp hrx hto hover hc he hf
    rw [hnoByte hp hrx, noByteTurn_of_over (s := u) hto hover, hc,
      execVal_of_short (s := u) he hf]
    rfl

/-! ### What the host reports (R57, R59, R60) -/

theorem reportPlausible_abandon (s : State) : ReportPlausible (abandon s) := .inl rfl

/-- What the check reports is the sentinel or an accepted reading (R59, R60). -/
theorem reportPlausible_check (s : State) (p : Phase) :
    ReportPlausible { s with report := conc s, phase := p } :=
  or_iff_not_imp_left.mpr conc_bounds_of_ne_sentinel

theorem reportPlausible_of_sameHost {s t : State} (h : sameHost s t) (hs : ReportPlausible s) :
    ReportPlausible t := by
  obtain ⟨_, _, _, _, _, hreport, _⟩ := h
  rwa [ReportPlausible, hreport]

/-- A move of the host that keeps its report plausible, whatever state it starts from. -/
def KeepsPlausible (f : State → Result) : Prop :=
  ∀ s t, ReportPlausible s → f s = .next t → ReportPlausible t

theorem keepsPlausible_goto (p : State → Phase) :
    KeepsPlausible fun s => .next (goto (p s) s) := by
  intro s t hs h
  injection h with h
  exact h ▸ hs

theorem keepsPlausible_abandon : KeepsPlausible fun s => .next (abandon s) := by
  intro s t _ h
  injection h with h
  exact h ▸ reportPlausible_abandon s

theorem keepsPlausible_unlessError (p : Phase) : KeepsPlausible (unlessError p) := by
  intro s t hs h
  by_cases he : s.err = .noError
  · exact keepsPlausible_goto (fun _ => p) s t hs ((unlessError_of_noError he).symm.trans h)
  · exact keepsPlausible_abandon s t hs ((unlessError_of_err he).symm.trans h)

/-- An instruction does not touch the report, so what the host does after it decides. -/
theorem andThen_exec_keepsPlausible {i : Instr} {f : State → Result} (hf : KeepsPlausible f)
    {s t : State} (hs : ReportPlausible s) (h : andThen (exec i s) f = .next t) :
    ReportPlausible t := by
  obtain ⟨u, hu, h⟩ := andThen_eq_next h
  exact hf u t (reportPlausible_of_sameHost (exec_sameHost hu) hs) h

theorem noByteTurn_keepsPlausible (since : Nat) (c : Bool) :
    KeepsPlausible (noByteTurn since c) := by
  intro s t hs h
  cases hto : s.readTimeout with
  | none =>
    injection (noByteTurn_of_noTimeout hto).symm.trans h with h
    exact h ▸ hs
  | some limit =>
    rcases Nat.lt_or_ge (s.elapsed - since) limit with hwait | hover
    · injection (noByteTurn_of_waiting hto hwait).symm.trans h with h
      exact h ▸ hs
    · rw [noByteTurn_of_over hto hover] at h
      cases c with
      | true => exact andThen_exec_keepsPlausible (i := .val) keepsPlausible_abandon hs h
      | false => exact keepsPlausible_abandon s t hs h

theorem readyTurn_keepsPlausible (c : Bool) : KeepsPlausible (readyTurn c) := by
  intro s t hs h
  cases hp : s.phase with
  | transmit =>
    rw [readyTurn_of_transmit hp] at h
    exact andThen_exec_keepsPlausible (i := .commandFrame)
      (keepsPlausible_goto fun t => .clear t.elapsed) hs h
  | clear since =>
    injection (readyTurn_of_clear hp).symm.trans h with h
    exact h ▸ hs
  | settle since =>
    rcases Nat.lt_or_ge (s.elapsed - since) s.settleDelay with hwait | hover
    · injection (readyTurn_of_settling hp hwait).symm.trans h with h
      exact h ▸ hs
    · injection (readyTurn_of_settled hp hover).symm.trans h with h
      exact h ▸ hs
  | read got since =>
    cases hrx : s.rx with
    | nil =>
      exact noByteTurn_keepsPlausible since c s t hs ((readyTurn_of_noByte hp hrx).symm.trans h)
    | cons b bs =>
      rw [readyTurn_of_byte hp hrx] at h
      exact andThen_exec_keepsPlausible (i := .push b) (s := { s with rx := bs })
        (keepsPlausible_goto fun _ => if got + 1 < 9 then .read (got + 1) since else .validate)
        hs h
  | validate =>
    rw [readyTurn_of_validate hp] at h
    exact andThen_exec_keepsPlausible (i := .val) (keepsPlausible_unlessError .decode) hs h
  | decode =>
    rw [readyTurn_of_decode hp] at h
    exact andThen_exec_keepsPlausible (i := .dec) (keepsPlausible_unlessError .check) hs h
  | check =>
    injection (readyTurn_of_check hp).symm.trans h with h
    exact h ▸ reportPlausible_check s .transmit

/-- The two invariants of the host together: what is reported, and what during the warm-up. -/
structure HostInv (s : State) : Prop where
  plausible : ReportPlausible s
  warmUp : WarmingUpReportsSentinel s

theorem hostInv_of_sameHost {s t : State} (h : sameHost s t) (hs : HostInv s) : HostInv t where
  plausible := reportPlausible_of_sameHost h hs.plausible
  warmUp := by
    obtain ⟨_, _, hmode, _, _, hreport, _⟩ := h
    rw [WarmingUpReportsSentinel, hmode, hreport]
    exact hs.warmUp

theorem hostInv_warmUpTurn (s : State) : HostInv (warmUpTurn s) := by
  rw [warmUpTurn_eq]
  exact ⟨.inl rfl, fun _ => rfl⟩

/-- The READY host is not in its warm-up, before its turn or after it (R56). -/
theorem hostInv_of_ready {s : State} (hm : s.mode = .ready) (hs : ReportPlausible s) : HostInv s :=
  ⟨hs, fun hwarm => nomatch hm.symm.trans hwarm⟩

theorem runEvent_hostInv {e : Event} {s t : State} (hs : HostInv s) (h : runEvent e s = .next t) :
    HostInv t := by
  cases e with
  | pins rst cv w => exact hostInv_of_sameHost (presentPins_sameHost h) hs
  | frame F =>
    have hpushes : exec (.responseFrame (frameOfWord F)) s = .next t :=
      (presentFrame_eq F s).symm.trans h
    exact hostInv_of_sameHost (exec_sameHost hpushes) hs
  | transmit => exact hostInv_of_sameHost (exec_sameHost (i := .commandFrame) h) hs
  | serial b =>
    injection h with h
    exact h ▸ ⟨hs.plausible, hs.warmUp⟩
  | turn dt c =>
    rcases hostTurn_cases h with ⟨_, rfl⟩ | ⟨hm, hready⟩
    · exact hostInv_warmUpTurn { s with elapsed := s.elapsed + dt }
    · exact hostInv_of_ready ((readyMove_mode (readyTurn_readyMove hready)).trans hm)
        (readyTurn_keepsPlausible c { s with elapsed := s.elapsed + dt } t hs.plausible hready)

/-- Settles O43: a report is written by the warm-up, by an abandoned cycle and by the check only. -/
theorem stepKeepsReportPlausible : Obligations.StepKeepsReportPlausible := by
  intro s t hplausible hwarm h
  have hs : HostInv s := ⟨hplausible, hwarm⟩
  have ht : HostInv t := by
    rcases step_cases h with ⟨_, rfl⟩ | ⟨e, es, _, he⟩
    · exact hs
    · exact runEvent_hostInv (s := { s with inputs := es }) ⟨hplausible, hwarm⟩ he
  exact ⟨ht.plausible, ht.warmUp⟩

end Sys2Proof.Machine

namespace Sys2Proof

/-- Settles O37: the turn is `warmUpTurn` of the model, whose name the obligation's has within
`Machine`. -/
theorem warmUpTurn : Obligations.WarmUpTurn :=
  fun _ _ _ _ hin hm => Machine.step_of_warmUp hin hm

end Sys2Proof
